-- ==== Sys2Proof/Word.lean ====
section
/-!
DEFINITION. The word types of the block (00_scope R5): 32-bit words, and the 8-bit lanes of 20_memory R40.
-/

namespace Sys2Proof

/-- A register, sample or port word (R5: "32 bits wide"). -/
abbrev Word := BitVec 32

/-- One byte lane of a word (R40). -/
abbrev Byte := BitVec 8

end Sys2Proof
end

