-- ==== Sys2Proof/Machine/Float32.lean ====
section
/-!
DEFINITION. The binary32 primitives of 00_scope R7 to R13: exact values, one rounding to nearest-even, canonical NaN,
no flags.
-/

namespace Sys2Proof.Machine.F32

/-- Bit 31 (R7). -/
def sign (b : Word) : Bool := b.getLsbD 31

/-- The exponent field E, bits 30:23 (R7). -/
def expField (b : Word) : Nat := (b.extractLsb' 23 8).toNat

/-- The fraction field F, bits 22:0 (R7). -/
def fracField (b : Word) : Nat := (b.extractLsb' 0 23).toNat

/-- E = 255 and F != 0 (R7). -/
def isNaN (b : Word) : Bool := expField b == 255 && fracField b != 0

/-- E = 255 and F = 0 (R7). -/
def isInf (b : Word) : Bool := expField b == 255 && fracField b == 0

/-- A signed zero: E = 0 and F = 0 (R7). -/
def isZero (b : Word) : Bool := expField b == 0 && fracField b == 0

/-- Neither an infinity nor a NaN. -/
def isFinite (b : Word) : Bool := expField b != 255

/-- |value| of a finite pattern in units of 2^-149 (R7): F when E = 0, else (2^23 + F) * 2^(E-1). -/
def magnitude (b : Word) : Nat :=
  if expField b = 0 then fracField b else (2 ^ 23 + fracField b) * 2 ^ (expField b - 1)

/-- The value of a finite pattern in units of 2^-149, an exact integer (R7). -/
def value (b : Word) : Int := if sign b then -(magnitude b : Int) else (magnitude b : Int)

/-- The canonical NaN, 0x7FC00000 (R9). -/
def cnan : Word := 0x7FC00000

/-- The zero with sign `neg`. -/
def zero (neg : Bool) : Word := if neg then 0x80000000 else 0x00000000

/-- The infinity with sign `neg`. -/
def inf (neg : Bool) : Word := if neg then 0xFF800000 else 0x7F800000

/-- The pattern with a sign, an exponent field and a fraction field (R7). -/
def pack (neg : Bool) (e f : Nat) : Word :=
  BitVec.ofNat 32 ((if neg then 2 ^ 31 else 0) + e * 2 ^ 23 + f)

/-- The integer nearest to `num / den`; on a tie the even one (R8). -/
def roundHalfEven (num den : Nat) : Nat :=
  let k := num / den
  let r := num % den
  if 2 * r > den ∨ (2 * r = den ∧ k % 2 = 1) then k + 1 else k

/-- `floor(log2(num / den))` for positive `num` and `den`. -/
def floorLog2 (num den : Nat) : Int :=
  let l : Int := (Nat.log2 num : Int) - (Nat.log2 den : Int)
  if den * 2 ^ l.toNat ≤ num * 2 ^ (-l).toNat then l else l - 1

/-- The quantum exponent of R8: `q = max(floor(log2(a)) - 23, -149)` for a = num / den. -/
def quantum (num den : Nat) : Int := max (floorLog2 num den - 23) (-149)

/-- Encode `n * 2^q`, with q >= -149 and n <= 2^24 as rounding leaves them (R8, by R7). "If n rounds up to 2^24, the
exponent goes up by one." A count below 2^23 occurs only at q = -149: a subnormal, or the zero. -/
def encodeCount (neg : Bool) (n : Nat) (q : Int) : Word :=
  let e := (q + 150).toNat
  if n < 2 ^ 23 then pack neg 0 n
  else if n = 2 ^ 24 then pack neg (e + 1) 0
  else pack neg e (n - 2 ^ 23)

/-- `RN32` of the nonzero real with sign `neg` and absolute value `num / den`, and for `num = 0` the zero with sign
`neg` (R8). -/
def rn32 (neg : Bool) (num den : Nat) : Word :=
  if num = 0 then zero neg
  else if num ≥ (2 ^ 128 - 2 ^ 103) * den then inf neg
  else
    let q := quantum num den
    encodeCount neg (roundHalfEven (num * 2 ^ (-q).toNat) (den * 2 ^ q.toNat)) q

/-- `fneg` (R12): flip bit 31 of any pattern. -/
def fneg (a : Word) : Word := a ^^^ 0x80000000

/-- `fadd` (R9). -/
def fadd (a b : Word) : Word :=
  if isNaN a || isNaN b then cnan
  else if isInf a && isInf b && sign a != sign b then cnan
  else if isInf a then a
  else if isInf b then b
  else
    let r := value a + value b
    if r = 0 then (if a = 0x80000000 ∧ b = 0x80000000 then 0x80000000 else 0x00000000)
    else rn32 (decide (r < 0)) r.natAbs (2 ^ 149)

/-- `fsub(a, b) = fadd(a, fneg(b))` (R10). -/
def fsub (a b : Word) : Word := fadd a (fneg b)

/-- `fmul` (R11). The product of two values is a multiple of 2^-298. -/
def fmul (a b : Word) : Word :=
  if isNaN a || isNaN b then cnan
  else if (isInf a && isZero b) || (isZero a && isInf b) then cnan
  else if isInf a || isInf b then inf (sign a != sign b)
  else rn32 (sign a != sign b) (magnitude a * magnitude b) (2 ^ 298)

end Sys2Proof.Machine.F32
end

