-- ==== Sys2Proof/Syntax.lean ====
section
/-!
DEFINITION. The eight commands of 30_encoding R49, one constructor per row of the opcode table, in the table's order.
-/

namespace Sys2Proof

/-- A command. The only operand of the block's instruction set is the stage index of STAGE (R50), written `STAGE <s>`
with `s` a decimal integer (R53); every other command has none. -/
inductive Instr where
  /-- `NOP` (R62): completes at once. -/
  | nop
  /-- `FFT` (R78): the forward transform. -/
  | fft
  /-- `IFFT` (R86): the inverse transform. -/
  | ifft
  /-- `BITREV` (R64): the bit-reversal permutation alone. -/
  | bitrev
  /-- `STAGES` (R77): butterfly stages 1..m. -/
  | stages
  /-- `STAGE <s>` (R76): butterfly stage `s` alone. -/
  | stage (s : Nat)
  /-- `CONJ` (R83): negate the imaginary channel. -/
  | conj
  /-- `SCALE` (R85): multiply both channels by 1/N. -/
  | scale
deriving DecidableEq, Repr

end Sys2Proof
end

