-- ==== Sys2Proof/WellFormed.lean ====
section
/-!
DEFINITION. When a command can be written in the one 32-bit format of 30_encoding R48.
-/

namespace Sys2Proof

/-- R53: "`<s>` is a decimal integer from 0 to 31" (the field S has 5 bits, R48). A command without an operand is always
well formed. A well-formed STAGE may still be rejected at submission (60_exceptions R95): that is the machine's answer,
not the encoding's. -/
def wellFormed : Instr → Bool
  | .nop => true
  | .fft => true
  | .ifft => true
  | .bitrev => true
  | .stages => true
  | .stage s => decide (s ≤ 31)
  | .conj => true
  | .scale => true

end Sys2Proof
end

