-- ==== Sys2Proof/Decode.lean ====
section
/-!
DEFINITION. The command decoder of 30_encoding R51, the encoder of R53 and the opcode map of R49.
-/

namespace Sys2Proof

/-- Field OP, bits 3:0 (R48). -/
def opField (w : Word) : BitVec 4 := w.extractLsb' 0 4

/-- Field S, bits 8:4 (R48). -/
def stageField (w : Word) : BitVec 5 := w.extractLsb' 4 5

/-- Field RSV, bits 31:9 (R48). -/
def rsvField (w : Word) : BitVec 23 := w.extractLsb' 9 23

/-- Why a word decodes to ILLEGAL (R51). All three are one error to the block, ILLEGAL_CMD (60_exceptions R91). -/
inductive IllegalWord where
  /-- OP is 0x8 to 0xF. -/
  | reservedOpcode
  /-- One of bits 31:9 is set. -/
  | reservedBits
  /-- S is not 0 on an opcode other than STAGE. -/
  | stageOnOtherOpcode
deriving DecidableEq, Repr

/-- The command of an opcode with stage field `S` (R49, R50); none for the reserved opcodes 0x8 to 0xF. -/
def commandOf (op : BitVec 4) (S : BitVec 5) : Option Instr :=
  match op.toNat with
  | 0 => some .nop
  | 1 => some .fft
  | 2 => some .ifft
  | 3 => some .bitrev
  | 4 => some .stages
  | 5 => some (.stage S.toNat)
  | 6 => some .conj
  | 7 => some .scale
  | _ => none

/-- `Decode(w)` of R51, total on every word, with the reason named where it is ILLEGAL. -/
def decode (w : Word) : Except IllegalWord Instr :=
  match commandOf (opField w) (stageField w) with
  | none => .error .reservedOpcode
  | some i =>
    if rsvField w ≠ 0 then .error .reservedBits
    else if opField w ≠ 0x5 ∧ stageField w ≠ 0 then .error .stageOnOtherOpcode
    else .ok i

/-- `Enc` of R53: the match word of R49, and for STAGE `0x00000005 OR (s << 4)`. -/
def encode : Instr → Word
  | .nop => 0x00000000
  | .fft => 0x00000001
  | .ifft => 0x00000002
  | .bitrev => 0x00000003
  | .stages => 0x00000004
  | .stage s => 0x00000005 ||| (BitVec.ofNat 32 s <<< 4)
  | .conj => 0x00000006
  | .scale => 0x00000007

/-- A row of the opcode map of R49: a word `w` selects it iff `(w AND mask) = match`. -/
structure OpcodeRow where
  mnemonic : String
  matchWord : Word
  mask : Word
deriving DecidableEq, Repr

/-- The word selects the row (R49). -/
def OpcodeRow.selects (r : OpcodeRow) (w : Word) : Bool := (w &&& r.mask) == r.matchWord

/-- The opcode map of R49, as the spec tabulates it. -/
def opcodeMap : List OpcodeRow :=
  [⟨"NOP", 0x00000000, 0xFFFFFFFF⟩, ⟨"FFT", 0x00000001, 0xFFFFFFFF⟩,
   ⟨"IFFT", 0x00000002, 0xFFFFFFFF⟩, ⟨"BITREV", 0x00000003, 0xFFFFFFFF⟩,
   ⟨"STAGES", 0x00000004, 0xFFFFFFFF⟩, ⟨"STAGE", 0x00000005, 0xFFFFFE0F⟩,
   ⟨"CONJ", 0x00000006, 0xFFFFFFFF⟩, ⟨"SCALE", 0x00000007, 0xFFFFFFFF⟩]

/-- The mnemonic of a command (R53). -/
def mnemonic : Instr → String
  | .nop => "NOP"
  | .fft => "FFT"
  | .ifft => "IFFT"
  | .bitrev => "BITREV"
  | .stages => "STAGES"
  | .stage _ => "STAGE"
  | .conj => "CONJ"
  | .scale => "SCALE"

/-- The command word whose low `nbits` bits are those of `w` and whose higher bits are 0. A command is one port word,
bit n of the port data being bit n of the word (20_memory R40, 30_encoding R52). -/
def tableWord (nbits w : Nat) : Word := BitVec.ofNat 32 (w % 2 ^ nbits)

/-- What the decoder reads from an instruction of the opcode table whose low `nbits` bits are `w`. -/
def decodeTableWord (nbits w : Nat) : Option Instr :=
  match decode (tableWord nbits w) with
  | .ok i => some i
  | .error _ => none

end Sys2Proof
end

