-- ==== Sys2Proof/Config.lean ====
section
/-!
DEFINITION. What the specification leaves open and the block does not choose: free values (opaque constants, which no
proof can evaluate) and the one build parameter's value in `State.reset`.
-/

namespace Sys2Proof.Config

/-- FREE VALUE. The byte at window offset `a` of a sample memory that nothing has written since power-on
(70_reset R114: "every word of RE and IM holds an unspecified pattern until the host writes it"). Log entry 1. -/
opaque powerOnByte : Nat → Byte

/-- FREE VALUE. The `n`-th unspecified word drawn: sample words after a reset that interrupts a command (R113), the
latches after a completion (10_state R28, 92 D33) or a reset (R111), the rotation words of the working state (R29). Log entries 4 and 5. -/
opaque freeWord : Nat → Word

/-- FREE VALUE. The `n`-th unspecified index drawn for the engine's working state (R29). Log entry 4. -/
opaque freeIndex : Nat → Nat

/-- FREE VALUE. Twiddle increments of a stage outside 1..16, for which the ROM of 10_state R26 has no entry. No accepted
command reads one. Log entry 9. -/
opaque noTwiddle : Nat → Word × Word

/-- FREE VALUE. The sign that `f:0` of a host script gives its zero (30_encoding R54 takes RN32 of the decimal, and
00_scope R8 leaves the sign of a zero to the caller). Log entry 12. -/
opaque decimalZeroSign : Bool

/-- DESIGN CHOICE (log entry 2): the build parameter LOG2_NMAX in `State.reset`. R3 leaves it OPEN (0..16); the test
vectors of 95_test_vectors.md use 10. It is a field of State, so every statement about all states holds for all builds. -/
def log2NMaxAtReset : Fin 17 := 10

end Sys2Proof.Config
end

