-- ==== Sys2Proof/Machine/State.lean ====
section
/-!
DEFINITION. The state of the block (10_state R31), with the engine's working state (R29), and of the two agents outside
it that the model carries along: the host's remaining accesses and the order in which agents move (R17, R43).
-/

namespace Sys2Proof.Machine

/-- The two sample memories, the real and the imaginary channel (10_state R25). -/
inductive Chan where
  | re
  | im
deriving DecidableEq, Repr

/-- One sample memory (DESIGN CHOICE, log entries 1 and 13): the bytes written since power-on, each at its byte offset in the block's window (20_memory R33,
R40), offsets strictly rising. An unlisted byte has no value of its own: what it reads as is `Config.powerOnByte`. -/
abbrev Memory := List Host.Cell

/-- `RE` and `IM` (10_state R25, R27: the two never alias). -/
structure Samples where
  re : Memory
  im : Memory
deriving DecidableEq, Repr

/-- The fields of `STATUS` (10_state R20). The reserved bits read 0 and ignore writes, so no field holds them. -/
structure Status where
  busy : Bool
  done : Bool
  err : BitVec 4
  haz : Bool
  buserr : Bool
deriving DecidableEq, Repr

/-- The engine's working state while a command runs (10_state R29): never observable, and unspecified outside the
computation of an effect. Indices are mathematical integers (00_scope R14). -/
structure Sequencer where
  /-- permutation index, cursor and carry -/
  permI : Nat
  permNd : Nat
  permK : Nat
  /-- stage index, span, half span, sub-band, butterfly index and partner -/
  stageS : Nat
  le : Nat
  le2 : Nat
  subBand : Nat
  bflyK : Nat
  bflyIp : Nat
  /-- rotation, increment and product -/
  ur : Word
  ui : Word
  sr : Word
  si : Word
  tr : Word
  ti : Word
  /-- element index of CONJ and SCALE -/
  elem : Nat
deriving DecidableEq, Repr

/-- Direction of a host access (20_memory R32). -/
inductive Dir where
  | read
  | write
deriving DecidableEq, Repr

/-- Size of a host access: "the host bus may offer 1, 2 or 4" bytes (R32). DEDUCED: no other size, log
entry 10. -/
inductive Size where
  | byte
  | half
  | word
deriving DecidableEq, Repr

/-- A host access `(dir, off, n, v)` (R32); the data of a read is not used. -/
structure Access where
  dir : Dir
  off : BitVec 22
  size : Size
  data : Word
deriving DecidableEq, Repr

/-- One thing the host does: an access, or the POLL loop of 30_encoding R54, which reads `off` until
`(data AND mask) = value`. -/
inductive HostLine where
  | access (a : Access)
  | poll (off : BitVec 22) (mask value : Word)
deriving DecidableEq, Repr

/-- Who moves next (10_state R17): the host, the engine by an internal step or by its completion step (40_command R58),
or the reset input (70_reset R111). -/
inductive Turn where
  | host
  | internal
  | complete
  | reset
deriving DecidableEq, Repr

/-- The state of the machine. The fields down to `seq` are the block's (R31, R24, R29). -/
structure State where
  /-- STATUS (R20) -/
  status : Status
  /-- RE_LEN (R21) -/
  reLen : Word
  /-- IM_LEN (R22) -/
  imLen : Word
  /-- IRQ_EN.EN (R23) -/
  irqEn : Bool
  /-- RE and IM (R25) -/
  samples : Samples
  /-- latched CMD.OP (R28) -/
  lop : BitVec 4
  /-- latched length (R28) -/
  ln : Word
  /-- latched log2 of the length (R28) -/
  lm : BitVec 5
  /-- latched CMD.S (R28) -/
  ls : BitVec 5
  /-- the build parameter LOG2_NMAX, which CAP reports (00_scope R3, 10_state R24); no step writes it -/
  log2NMax : Fin 17
  /-- working state (R29) -/
  seq : Sequencer
  /-- what the last read at the port returned (20_memory R32); the model's own field -/
  rdata : Word
  /-- the lines the host has still to issue, in its order (R43); the model's own field -/
  script : List HostLine
  /-- who moves next, and after that; the model's own field (log entry 6) -/
  turns : List Turn
  /-- how many free values have been drawn; the model's own field (log entry 5) -/
  fresh : Nat
deriving DecidableEq, Repr

/-- Why the machine stops with a fault. -/
inductive Fault where
  /-- Raised by the engine's completion step alone: BUSY = 1 while the latches hold what no accept (40_command R56)
  leaves, so that R59 names no effect. No run from reset reaches it. Safe: the machine stops. -/
  | inconsistentLatches
deriving DecidableEq, Repr

/-- Why the machine refuses. -/
inductive Refusal where
  /-- Raised by an arm of `exec` that has no meaning yet; no arm does. Safe: the machine stops. -/
  | notModelled (mnemonic : String)
deriving DecidableEq, Repr

/-- Working state with every value 0: at power-on the spec leaves it unspecified (R29). DESIGN CHOICE, log entry 4. -/
def Sequencer.zero : Sequencer :=
  { permI := 0, permNd := 0, permK := 0, stageS := 0, le := 0, le2 := 0, subBand := 0, bflyK := 0, bflyIp := 0,
    ur := 0, ui := 0, sr := 0, si := 0, tr := 0, ti := 0, elem := 0 }

/-- STATUS = 0x00000000 (R112). -/
def Status.zero : Status := { busy := false, done := false, err := 0, haz := false, buserr := false }

/-- The machine right after power-on of a build with LOG2_NMAX = `k` (70_reset R112, R114): registers 0, no sample word
written. The latches' 0 is a DESIGN CHOICE (log entry 3), as is the 0 of `rdata` (log entry 7). -/
def State.resetFor (k : Fin 17) : State :=
  { status := Status.zero, reLen := 0, imLen := 0, irqEn := false, samples := { re := [], im := [] },
    lop := 0, ln := 0, lm := 0, ls := 0, log2NMax := k, seq := Sequencer.zero,
    rdata := 0, script := [], turns := [], fresh := 0 }

/-- The machine right after power-on, for the build of `Config.log2NMaxAtReset`. -/
def State.reset : State := State.resetFor Config.log2NMaxAtReset

end Sys2Proof.Machine
end

