-- ==== Sys2Proof/Machine/Flags.lean ====
section
/-!
DEFINITION. Every flag computation of the block: the STATUS word, its write-1-to-clear update, the sticky flags and the
interrupt line (10_state R20, 60_exceptions R90, R98, R99, R101). Binary32 arithmetic sets no flag (00_scope R13).
-/

namespace Sys2Proof.Machine

/-- The error codes of R90; 6 to 15 are never produced. -/
inductive ErrCode where
  | none
  | illegalCmd
  | lenMismatch
  | lenNotPow2
  | lenTooBig
  | stageRange
deriving DecidableEq, Repr

/-- The number of an error code (R90). -/
def errNumber : ErrCode → BitVec 4
  | .none => 0
  | .illegalCmd => 1
  | .lenMismatch => 2
  | .lenNotPow2 => 3
  | .lenTooBig => 4
  | .stageRange => 5

/-- The word a read of STATUS returns (20_memory R36): `zext_32(BUSERR ++ HAZ ++ ERR ++ 0b00 ++ DONE ++ BUSY)`. -/
def statusWord (f : Status) : Word :=
  (BitVec.ofBool f.buserr ++ BitVec.ofBool f.haz ++ f.err ++ 0b00#2 ++ BitVec.ofBool f.done ++
    BitVec.ofBool f.busy).setWidth 32

/-- A host write of `w` to STATUS (R20): 1 in bit 1, 8 or 9 clears DONE, HAZ or BUSERR; every other bit is ignored. -/
def writeOneToClear (w : Word) (f : Status) : Status :=
  { f with
    done := if w.getLsbD 1 then false else f.done
    haz := if w.getLsbD 8 then false else f.haz
    buserr := if w.getLsbD 9 then false else f.buserr }

/-- `x[STATUS].HAZ <- 1`: a host access refused because the block is busy (R98). -/
def raiseHaz (s : State) : State := { s with status := { s.status with haz := true } }

/-- `x[STATUS].BUSERR <- 1`: an illegal host access (R99). -/
def raiseBuserr (s : State) : State := { s with status := { s.status with buserr := true } }

/-- `x[STATUS].DONE <- 0` and then `x[STATUS].ERR <- e`, the first lines of every submission (40_command R56). -/
def recordResult (e : ErrCode) (s : State) : State :=
  { s with status := { s.status with done := false, err := errNumber e } }

/-- `x[STATUS].DONE <- 1`. -/
def raiseDone (s : State) : State := { s with status := { s.status with done := true } }

/-- The interrupt output (R101): a level, `x[STATUS].DONE AND x[IRQ_EN].EN`. -/
def irq (s : State) : Bool := s.status.done && s.irqEn

end Sys2Proof.Machine
end

