-- ==== Sys2Proof/Machine/Operands.lean ====
section
/-!
DEFINITION. The operands of commands and of host accesses: the lengths and the stage index with their checks (00_scope
R15, 60_exceptions R92 to R96), and the places a window offset can name (10_state R18, 20_memory R33 to R35).
-/

namespace Sys2Proof.Machine

/-- `N_MAX = 2^LOG2_NMAX` (00_scope R4). -/
def nMax (s : State) : Nat := 2 ^ s.log2NMax.val

/-- `isPow2(n)` (R15): `n != 0` and `(n AND (n - 1)) = 0` on the 32-bit value. -/
def isPow2 (n : Word) : Bool := n != 0 && (n &&& (n - 1)) == 0

/-- `log2(n)` (R15), exact on the powers of two it is applied to. -/
def log2 (n : Word) : Nat := Nat.log2 n.toNat

/-- The three length checks every command but NOP makes, in the order of R96 (R92, R93, R94). -/
def lengthError (s : State) : ErrCode :=
  if s.reLen ≠ s.imLen then .lenMismatch
  else if isPow2 s.reLen = false then .lenNotPow2
  else if s.reLen.toNat > nMax s then .lenTooBig
  else .none

/-- The checks of `STAGE k` (R95, R96): the lengths first, then `1 <= k <= log2(N)`. -/
def stageError (k : Nat) (s : State) : ErrCode :=
  match lengthError s with
  | .none => if k = 0 ∨ k > log2 s.reLen then .stageRange else .none
  | e => e

/-- The result of validating a decoded command (R96 after its first line). -/
def commandError (i : Instr) (s : State) : ErrCode :=
  match i with
  | .nop => .none
  | .stage k => stageError k s
  | .fft | .ifft | .bitrev | .stages | .conj | .scale => lengthError s

/-- `Validate(v)` of R96. -/
def validate (v : Word) (s : State) : ErrCode :=
  match decode v with
  | .error _ => .illegalCmd
  | .ok i => commandError i s

/-- The six registers (10_state R18). -/
inductive Reg where
  | cmd
  | status
  | reLen
  | imLen
  | irqEn
  | cap
deriving DecidableEq, Repr

/-- Byte offsets of the registers (R18). -/
def regOffset : Reg → Nat
  | .cmd => 0x000
  | .status => 0x004
  | .reLen => 0x008
  | .imLen => 0x00C
  | .irqEn => 0x010
  | .cap => 0x014

/-- Byte offset of a channel's window (20_memory R33). -/
def chanBase : Chan → Nat
  | .re => 0x100000
  | .im => 0x200000

/-- Byte offset of word `i` of a channel (R35). -/
def sampleOffset (c : Chan) (i : Nat) : Nat := chanBase c + 4 * i

/-- What a mapped word offset names. -/
inductive Place where
  | reg (r : Reg)
  | sample (c : Chan) (i : Nat)
deriving DecidableEq, Repr

/-- The register at an offset, if there is one (R18). -/
def regAt (off : Nat) : Option Reg :=
  match off with
  | 0x000 => some .cmd
  | 0x004 => some .status
  | 0x008 => some .reLen
  | 0x00C => some .imLen
  | 0x010 => some .irqEn
  | 0x014 => some .cap
  | _ => none

/-- The sample word at an offset, if it is in one of the two windows (R33, R35). -/
def sampleAt (n off : Nat) : Option Place :=
  if chanBase .re ≤ off ∧ off < chanBase .re + 4 * n then some (.sample .re ((off - chanBase .re) / 4))
  else if chanBase .im ≤ off ∧ off < chanBase .im + 4 * n then some (.sample .im ((off - chanBase .im) / 4))
  else none

/-- What an access reaches (R34): nothing when the size is not 4 bytes, the offset is not a multiple of 4, or the
offset is unmapped. Such an access is illegal. -/
def locate (s : State) (off : BitVec 22) (size : Size) : Option Place :=
  if size ≠ .word then none
  else if off.toNat % 4 ≠ 0 then none
  else
    match regAt off.toNat with
    | some r => some (.reg r)
    | none => sampleAt (nMax s) off.toNat

end Sys2Proof.Machine
end

