-- ==== Sys2Proof/Machine/Ops.lean ====
section
/-!
DEFINITION. The named operations every meaning is built from: bytes and words of the sample memories (10_state R25,
20_memory R40), taking an error (60_exceptions R103), accepting a command (40_command R56), and drawing unspecified
values (10_state R28, R29).
-/

namespace Sys2Proof.Machine

/-! ### Bytes -/

/-- The byte written at offset `a`; none where nothing has been written since power-on. -/
def Memory.read : Memory → Nat → Option Byte
  | [], _ => none
  | c :: m, a => if c.1 = a then some c.2 else Memory.read m a

/-- Write one byte, keeping the offsets strictly rising. -/
def Memory.write : Memory → Nat → Byte → Memory
  | [], a, b => [(a, b)]
  | c :: m, a, b =>
    if a < c.1 then (a, b) :: c :: m
    else if a = c.1 then (a, b) :: m
    else c :: Memory.write m a b

/-- The canonical form: offsets strictly rising. An unlisted byte has no value, so no listed one equals it. -/
abbrev Memory.wf (m : Memory) : Prop := m.Pairwise (fun c d => c.1 < d.1)

/-- What a byte holds: what was written, or the unspecified power-on value (70_reset R114). DESIGN CHOICE, log
entry 1. -/
def Memory.byte (m : Memory) (a : Nat) : Byte := (m.read a).getD (Config.powerOnByte a)

/-! ### Words -/

/-- Byte lane `b` carries bits `[8b+7 : 8b]` (R40). -/
def lane (w : Word) (b : Nat) : Byte := w.extractLsb' (8 * b) 8

/-- The word at offset `a`, lane 0 lowest (R40). -/
def Memory.readWord (m : Memory) (a : Nat) : Word :=
  m.byte (a + 3) ++ m.byte (a + 2) ++ m.byte (a + 1) ++ m.byte a

/-- Store a whole word exactly at offset `a` (R38, R40). -/
def Memory.writeWord (m : Memory) (a : Nat) (w : Word) : Memory :=
  (((m.write a (lane w 0)).write (a + 1) (lane w 1)).write (a + 2) (lane w 2)).write (a + 3) (lane w 3)

/-! ### Sample words -/

/-- The memory of a channel. -/
def Samples.chan (x : Samples) : Chan → Memory
  | .re => x.re
  | .im => x.im

/-- `RE[i]` or `IM[i]` (10_state R25). -/
def Samples.get (x : Samples) (c : Chan) (i : Nat) : Word := (x.chan c).readWord (sampleOffset c i)

/-- `RE[i] <- w` or `IM[i] <- w` (R25: the pattern is stored exactly). -/
def Samples.set (x : Samples) (c : Chan) (i : Nat) (w : Word) : Samples :=
  match c with
  | .re => { x with re := x.re.writeWord (sampleOffset .re i) w }
  | .im => { x with im := x.im.writeWord (sampleOffset .im i) w }

/-- The complex sample `(RE[i], IM[i])`. -/
def Samples.point (x : Samples) (i : Nat) : Word × Word := (x.get .re i, x.get .im i)

/-- `(RE[i], IM[i]) <- p`. -/
def Samples.setPoint (x : Samples) (i : Nat) (p : Word × Word) : Samples :=
  (x.set .re i p.1).set .im i p.2

/-! ### Submission: error entry and acceptance -/

/-- ERROR ENTRY, the block's only form of taking an exception (R103): the code goes to STATUS.ERR, DONE is set, and
nothing else changes (R97). The way back is the host's write of 1 to STATUS bit 1 (R104, `writeOneToClear`). -/
def reject (e : ErrCode) (s : State) : State := raiseDone (recordResult e s)

/-- Acceptance (R56): ERR = 0, the four latches of 10_state R28 are loaded and BUSY is set. -/
def accept (op : BitVec 4) (stage : BitVec 5) (s : State) : State :=
  let s1 := recordResult .none s
  { s1 with
    lop := op
    ln := s1.reLen
    lm := BitVec.ofNat 5 (log2 s1.reLen)
    ls := stage
    status := { s1.status with busy := true } }

/-- Submission of a command that works on the samples, given what its validation found: refused with HAZ while BUSY = 1
(R57), else rejected or accepted (R56). -/
def submit (e : ErrCode) (op : BitVec 4) (stage : BitVec 5) (s : State) : State :=
  if s.status.busy then raiseHaz s
  else match e with
    | .none => accept op stage s
    | e => reject e s

/-! ### Unspecified values -/

/-- Working state with unspecified values, the free values number `n` to `n + 15` (10_state R29). -/
def drawSequencer (n : Nat) : Sequencer :=
  { permI := Config.freeIndex n, permNd := Config.freeIndex (n + 1), permK := Config.freeIndex (n + 2),
    stageS := Config.freeIndex (n + 3), le := Config.freeIndex (n + 4), le2 := Config.freeIndex (n + 5),
    subBand := Config.freeIndex (n + 6), bflyK := Config.freeIndex (n + 7), bflyIp := Config.freeIndex (n + 8),
    ur := Config.freeWord (n + 9), ui := Config.freeWord (n + 10), sr := Config.freeWord (n + 11),
    si := Config.freeWord (n + 12), tr := Config.freeWord (n + 13), ti := Config.freeWord (n + 14),
    elem := Config.freeIndex (n + 15) }

/-- Replace the working state by unspecified values (R29). DESIGN CHOICE, log entry 4. -/
def scrambleSequencer (s : State) : State := { s with seq := drawSequencer s.fresh, fresh := s.fresh + 16 }

/-- Replace the latches LOP, LN, LM, LS and the working state by unspecified values: the latches are "held while BUSY = 1;
unspecified otherwise" (R28, 92 D33), so whatever ends a command, a completion or the reset input, leaves them free.
DESIGN CHOICE, log entry 5. -/
def scrambleLatches (s : State) : State :=
  scrambleSequencer
    { s with
      lop := (Config.freeWord s.fresh).setWidth 4
      ln := Config.freeWord (s.fresh + 1)
      lm := (Config.freeWord (s.fresh + 2)).setWidth 5
      ls := (Config.freeWord (s.fresh + 3)).setWidth 5
      fresh := s.fresh + 4 }

end Sys2Proof.Machine
end

