-- ==== Sys2Proof/Machine/Permutation.lean ====
section
/-!
DEFINITION. The bit-reversal permutation (41_permutation): BITREV and `BitRevBody`.
-/

namespace Sys2Proof.Machine

/-- `swap(RE[i], RE[j])` and `swap(IM[i], IM[j])` (R63, R66): two whole samples change places, no bit of them changes. -/
def swapPoints (x : Samples) (i j : Nat) : Samples :=
  (x.setPoint i (x.point j)).setPoint j (x.point i)

/-- The carry loop of R63, `while k <= nd: nd <- nd - k; k <- k / 2`, giving the final `(nd, k)`. It ends by itself
within log2(N) turns (R67), so the bound `fuel` is never reached on a length that validation lets through
(DEDUCED, log entry 9). -/
def carry : (fuel nd k : Nat) → Nat × Nat
  | 0, nd, k => (nd, k)
  | fuel + 1, nd, k => if k ≤ nd then carry fuel (nd - k) (k / 2) else (nd, k)

/-- One turn of the outer loop of R63 at index `i`, on the cursor and the samples. -/
def bitRevStep (N : Nat) (st : Nat × Samples) (i : Nat) : Nat × Samples :=
  let x := if i < st.1 then swapPoints st.2 i st.1 else st.2
  let c := carry 32 st.1 (N / 2)
  (c.1 + c.2, x)

/-- `BitRevBody` (R63): the cursor starts at N/2 and i runs over 1 .. N-2 in ascending order. -/
def bitRevBody (N : Nat) (x : Samples) : Samples :=
  ((List.range' 1 (N - 2)).foldl (bitRevStep N) (N / 2, x)).2

/-- `rev_m(i)` (00_scope R16): the m binary digits of i in reverse order. The hardware computes it by the cursor; R65
states that the two agree. -/
def revBits : (m i : Nat) → Nat
  | 0, _ => 0
  | m + 1, i => (i % 2) * 2 ^ m + revBits m (i / 2)

/-- BITREV (R64): submission. Its effect, `bitRevBody`, is applied by the completion step. -/
def execBitrev (s : State) : Host.Outcome State Fault Refusal :=
  .next (submit (lengthError s) 0x3 0 s)

end Sys2Proof.Machine
end

