-- ==== Sys2Proof/Machine/Twiddle.lean ====
section
/-!
DEFINITION. The twiddle ROM of 10_state R26, as the spec tabulates it: for stage s the increment
(cos(pi / 2^(s-1)), sin(pi / 2^(s-1))), each rounded once, with the positive sine of 90_conflicts C3.
-/

namespace Sys2Proof.Machine

/-- `(SR_s, SI_s)` for 1 <= s <= 16 (R26). The block's ROM holds the first LOG2_NMAX of them; no accepted command reads
another. -/
def twiddle : Nat → Word × Word
  | 1 => (0xBF800000, 0x00000000)
  | 2 => (0x00000000, 0x3F800000)
  | 3 => (0x3F3504F3, 0x3F3504F3)
  | 4 => (0x3F6C835E, 0x3EC3EF15)
  | 5 => (0x3F7B14BE, 0x3E47C5C2)
  | 6 => (0x3F7EC46D, 0x3DC8BD36)
  | 7 => (0x3F7FB10F, 0x3D48FB30)
  | 8 => (0x3F7FEC43, 0x3CC90AB0)
  | 9 => (0x3F7FFB11, 0x3C490E90)
  | 10 => (0x3F7FFEC4, 0x3BC90F88)
  | 11 => (0x3F7FFFB1, 0x3B490FC6)
  | 12 => (0x3F7FFFEC, 0x3AC90FD5)
  | 13 => (0x3F7FFFFB, 0x3A490FD9)
  | 14 => (0x3F7FFFFF, 0x39C90FDA)
  | 15 => (0x3F800000, 0x39490FDB)
  | 16 => (0x3F800000, 0x38C90FDB)
  | s => Config.noTwiddle s

end Sys2Proof.Machine
end

