-- ==== Sys2Proof/Machine/Butterfly.lean ====
section
/-!
DEFINITION. The complex multiply-accumulate datapath and the butterfly stages (42_butterfly): STAGE, STAGES and FFT.
-/

namespace Sys2Proof.Machine

open F32

/-- `CMUL` (R69): four rounded products, one rounded subtraction, one rounded addition. -/
def cmul (a b : Word × Word) : Word × Word :=
  (fsub (fmul a.1 b.1) (fmul a.2 b.2), fadd (fmul a.1 b.2) (fmul a.2 b.1))

/-- Complex addition, channel by channel (R70). -/
def cadd (a b : Word × Word) : Word × Word := (fadd a.1 b.1, fadd a.2 b.2)

/-- Complex subtraction, channel by channel (R70). -/
def csub (a b : Word × Word) : Word × Word := (fsub a.1 b.1, fsub a.2 b.2)

/-- The initial rotation of every stage, (1.0, +0.0) (R72). -/
def unitRotation : Word × Word := (0x3F800000, 0x00000000)

/-- `Bfly(k, ip, w)` (R70): both new values use the old element k. -/
def bfly (x : Samples) (k ip : Nat) (w : Word × Word) : Samples :=
  let t := cmul (x.point ip) w
  let xk := x.point k
  (x.setPoint ip (csub xk t)).setPoint k (cadd xk t)

/-- The inner loop of R73, `while k <= N - 2: Bfly(k, k + le2, w); k <- k + le`. Each turn raises k, so `fuel = N` turns
are enough (DEDUCED, log entry 9). -/
def subBandLoop (N le le2 : Nat) (w : Word × Word) : (fuel k : Nat) → Samples → Samples
  | 0, _, x => x
  | fuel + 1, k, x =>
    if k + 2 ≤ N then subBandLoop N le le2 w fuel (k + le) (bfly x k (k + le2) w) else x

/-- One turn of the sub-band loop of R73 for sub-band `j`: its butterflies, then the rotation advance of R71. -/
def subBand (N s : Nat) (st : (Word × Word) × Samples) (j : Nat) : (Word × Word) × Samples :=
  (cmul st.1 (twiddle s), subBandLoop N (2 ^ s) (2 ^ s / 2) st.1 N (j - 1) st.2)

/-- `StageBody(s)` (R73) for length N. -/
def stageBody (N s : Nat) (x : Samples) : Samples :=
  ((List.range' 1 (2 ^ s / 2)).foldl (subBand N s) (unitRotation, x)).2

/-- `StagesBody` (R73): stages 1 .. m in ascending order. -/
def stagesBody (N m : Nat) (x : Samples) : Samples :=
  (List.range' 1 m).foldl (fun x s => stageBody N s x) x

/-- `FftBody` (R78). -/
def fftBody (N m : Nat) (x : Samples) : Samples := stagesBody N m (bitRevBody N x)

/-- FFT (R78): submission. Its effect, `fftBody`, is applied by the completion step. -/
def execFft (s : State) : Host.Outcome State Fault Refusal :=
  .next (submit (lengthError s) 0x1 0 s)

/-- STAGES (R77): submission. Its effect, `stagesBody`, is applied by the completion step. -/
def execStages (s : State) : Host.Outcome State Fault Refusal :=
  .next (submit (lengthError s) 0x4 0 s)

/-- STAGE k (R76): submission, with the index latched in LS. Its effect, `stageBody`, is applied by the completion
step. -/
def execStage (k : Nat) (s : State) : Host.Outcome State Fault Refusal :=
  .next (submit (stageError k s) 0x5 (BitVec.ofNat 5 k) s)

end Sys2Proof.Machine
end

