-- ==== Sys2Proof/Machine/Inverse.lean ====
section
/-!
DEFINITION. The inverse scaling and conjugation path (43_inverse): CONJ, SCALE and IFFT.
-/

namespace Sys2Proof.Machine

open F32

/-- `ConjBody` (R82): `IM[i] <- fneg(IM[i])` for i in 0 .. N-1. -/
def conjBody (N : Nat) (x : Samples) : Samples :=
  (List.range N).foldl (fun x i => x.set .im i (fneg (x.get .im i))) x

/-- The constant C of R84, `(127 - m) << 23`, the pattern of 2^-m. -/
def scaleConstant (m : Nat) : Word := BitVec.ofNat 32 ((127 - m) <<< 23)

/-- `ScaleBody` (R84): both channels times C, for i in 0 .. N-1. -/
def scaleBody (N m : Nat) (x : Samples) : Samples :=
  (List.range N).foldl
    (fun x i => x.setPoint i (fmul (x.get .re i) (scaleConstant m), fmul (x.get .im i) (scaleConstant m))) x

/-- `IfftBody` (R86), in the source's order. -/
def ifftBody (N m : Nat) (x : Samples) : Samples :=
  conjBody N (scaleBody N m (stagesBody N m (bitRevBody N (conjBody N x))))

/-- CONJ (R83): submission. Its effect, `conjBody`, is applied by the completion step. -/
def execConj (s : State) : Host.Outcome State Fault Refusal :=
  .next (submit (lengthError s) 0x6 0 s)

/-- SCALE (R85): submission. Its effect, `scaleBody`, is applied by the completion step. -/
def execScale (s : State) : Host.Outcome State Fault Refusal :=
  .next (submit (lengthError s) 0x7 0 s)

/-- IFFT (R86): submission. Its effect, `ifftBody`, is applied by the completion step. -/
def execIfft (s : State) : Host.Outcome State Fault Refusal :=
  .next (submit (lengthError s) 0x2 0 s)

end Sys2Proof.Machine
end

