-- ==== Sys2Proof/Machine/Completion.lean ====
section
/-!
DEFINITION. The engine's steps while BUSY = 1 (40_command R58, R59): internal steps, and the completion step that
applies the latched command's effect.
-/

namespace Sys2Proof.Machine

/-- The latches hold what an accept leaves (40_command R56, with the checks of 60_exceptions R96): an opcode of R59, a
length that is 2^LM within N_MAX, and for STAGE an index within 1 .. LM. Other latches have no effect
in R59: DESIGN CHOICE, log entry 9. -/
def latchesConsistent (s : State) : Bool :=
  decide (1 ≤ s.lop.toNat ∧ s.lop.toNat ≤ 7 ∧ s.ln.toNat = 2 ^ s.lm.toNat ∧ s.lm.toNat ≤ s.log2NMax.val ∧
    (s.lop = 0x5 → 1 ≤ s.ls.toNat ∧ s.ls.toNat ≤ s.lm.toNat))

/-- `Effect(LOP)` of R59 on the sample memories, a function of them, LN, LM, LS and the twiddle ROM. -/
def effect (s : State) : Samples :=
  match s.lop.toNat with
  | 1 => fftBody s.ln.toNat s.lm.toNat s.samples
  | 2 => ifftBody s.ln.toNat s.lm.toNat s.samples
  | 3 => bitRevBody s.ln.toNat s.samples
  | 4 => stagesBody s.ln.toNat s.lm.toNat s.samples
  | 5 => stageBody s.ln.toNat s.ls.toNat s.samples
  | 6 => conjBody s.ln.toNat s.samples
  | 7 => scaleBody s.ln.toNat s.lm.toNat s.samples
  | _ => s.samples

/-- `Complete()` of R58: the effect, BUSY = 0 and DONE = 1 in one step. No working state survives it (10_state R29). What
LOP, LN, LM and LS hold once BUSY = 0 is unspecified (10_state R28, 92 D33, 93 part 2 "any value"): DESIGN CHOICE, the
completion leaves free values in them, log entry 5. It stops only on latches that no accept leaves (log entry 9). -/
def completion (s : State) : Host.Outcome State Fault Refusal :=
  if latchesConsistent s then
    .next (scrambleLatches
      { s with samples := effect s, status := { s.status with busy := false, done := true } })
  else .fault .inconsistentLatches

/-- The engine's turn to complete: enabled only while BUSY = 1 (R58); with BUSY = 0 it has no enabled step and all state
is kept (60_exceptions R110). -/
def engineCompletes (s : State) : Host.Outcome State Fault Refusal :=
  if s.status.busy then completion s else .next s

/-- An internal engine step (R58): it changes nothing a host can observe, only the working state. With BUSY = 0 there is
none. -/
def engineInternal (s : State) : Host.Outcome State Fault Refusal :=
  .next (if s.status.busy then scrambleSequencer s else s)

end Sys2Proof.Machine
end

