-- ==== Sys2Proof/Machine/Command.lean ====
section
/-!
DEFINITION. The command family of 40_command: NOP (R62). What every other command shares with it, submission and
completion, is in Ops.lean and Completion.lean.
-/

namespace Sys2Proof.Machine

/-- NOP (R62): refused with HAZ while busy (R57); otherwise DONE = 1 and ERR = 0 at once, with no length check. -/
def execNop (s : State) : Host.Outcome State Fault Refusal :=
  .next (if s.status.busy then raiseHaz s else raiseDone (recordResult .none s))

end Sys2Proof.Machine
end

