-- ==== Sys2Proof/Machine/Dispatch.lean ====
section
/-! DEFINITION. The meaning of each command: what a CMD write of its word does (40_command R56, R57). -/

namespace Sys2Proof.Machine

def exec (i : Instr) (s : State) : Host.Outcome State Fault Refusal :=
  match i with
  | .nop => Sys2Proof.Machine.execNop s
  | .fft => Sys2Proof.Machine.execFft s
  | .ifft => Sys2Proof.Machine.execIfft s
  | .bitrev => Sys2Proof.Machine.execBitrev s
  | .stages => Sys2Proof.Machine.execStages s
  | .stage k => Sys2Proof.Machine.execStage k s
  | .conj => Sys2Proof.Machine.execConj s
  | .scale => Sys2Proof.Machine.execScale s

end Sys2Proof.Machine
end

