-- ==== Sys2Proof/Machine/Port.lean ====
section
/-!
DEFINITION. The host port (20_memory R32 to R41) and the host agent that issues accesses through it (10_state R17,
30_encoding R54).
-/

namespace Sys2Proof.Machine

/-- `RegRead` (R36): the word a register read returns; no side effect. -/
def regRead (r : Reg) (s : State) : Word :=
  match r with
  | .cmd => 0
  | .status => statusWord s.status
  | .reLen => s.reLen
  | .imLen => s.imLen
  | .irqEn => (BitVec.ofBool s.irqEn).setWidth 32
  | .cap => BitVec.ofNat 32 s.log2NMax.val

/-- `MemRead` (R34): the word returned and the state after. Illegal: BUSERR and 0. A sample read while busy: HAZ and 0
(R39). -/
def memRead (off : BitVec 22) (size : Size) (s : State) : Word × State :=
  match locate s off size with
  | none => (0, raiseBuserr s)
  | some (.reg r) => (regRead r s, s)
  | some (.sample c i) => if s.status.busy then (0, raiseHaz s) else (s.samples.get c i, s)

/-- A write of `v` to CMD: the submission of R56 while idle, and the refusal of R57, without decoding, while busy. An
ILLEGAL word is rejected with ILLEGAL_CMD (30_encoding R51, 60_exceptions R91). -/
def writeCmd (v : Word) (s : State) : Host.Outcome State Fault Refusal :=
  if s.status.busy then .next (raiseHaz s)
  else match decode v with
    | .error _ => .next (reject .illegalCmd s)
    | .ok i => exec i s

/-- `RegWrite` (R36). -/
def regWrite (r : Reg) (v : Word) (s : State) : Host.Outcome State Fault Refusal :=
  match r with
  | .cmd => writeCmd v s
  | .status => .next { s with status := writeOneToClear v s.status }
  | .reLen => .next (if s.status.busy then raiseHaz s else { s with reLen := v })
  | .imLen => .next (if s.status.busy then raiseHaz s else { s with imLen := v })
  | .irqEn => .next { s with irqEn := v.getLsbD 0 }
  | .cap => .next s

/-- `MemWrite` (R34): illegal, BUSERR and nothing else; a sample write while busy, HAZ and nothing else (R39); else the
word is stored exactly (R38). -/
def memWrite (off : BitVec 22) (size : Size) (v : Word) (s : State) : Host.Outcome State Fault Refusal :=
  match locate s off size with
  | none => .next (raiseBuserr s)
  | some (.reg r) => regWrite r v s
  | some (.sample c i) =>
    .next (if s.status.busy then raiseHaz s else { s with samples := s.samples.set c i v })

/-- A read as the host sees it: the returned word is left in `rdata` (DESIGN CHOICE, log entry 7). -/
def hostRead (off : BitVec 22) (size : Size) (s : State) : State :=
  { (memRead off size s).2 with rdata := (memRead off size s).1 }

/-- One host access (R32). -/
def access (a : Access) (s : State) : Host.Outcome State Fault Refusal :=
  match a.dir with
  | .read => .next (hostRead a.off a.size s)
  | .write => memWrite a.off a.size a.data s

/-- The host's step on a line it has taken from its script: an access, or one read of a POLL loop, which puts the line
back until the condition holds (30_encoding R54). -/
def runLine (l : HostLine) (s : State) : Host.Outcome State Fault Refusal :=
  match l with
  | .access a => access a s
  | .poll off mask value =>
    let t := hostRead off .word s
    .next (if t.rdata &&& mask = value then t else { t with script := .poll off mask value :: t.script })

/-- The host's turn: its next line, if it has one. -/
def hostStep (s : State) : Host.Outcome State Fault Refusal :=
  match s.script with
  | [] => .next s
  | l :: rest => runLine l { s with script := rest }

/-- Who moves: the turn at the head of the list; with no turn listed, a busy engine completes before the host goes on
(weak fairness, 70_reset R121). DESIGN CHOICE, log entry 6. -/
def nextTurn (s : State) : Turn :=
  match s.turns with
  | [] => if s.status.busy then .complete else .host
  | t :: _ => t

/-- The state with the head of the list of turns taken off. -/
def dropTurn (s : State) : State := { s with turns := s.turns.tail }

/-- The state in which the host is about to write `v` to CMD, before anything else it does. -/
def stageCmdWrite (v : Word) (s : State) : State :=
  { s with
    script := .access { dir := .write, off := 0x000, size := .word, data := v } :: s.script
    turns := .host :: s.turns }

end Sys2Proof.Machine
end

