-- ==== Sys2Proof/Machine/Reset.lean ====
section
/-!
DEFINITION. The reset input (70_reset R111 to R113).
-/

namespace Sys2Proof.Machine

/-- The first `N` words of both channels become unspecified, "independently per word": the free values number `n`
onwards (R113; DESIGN CHOICE, log entry 5). -/
def scramblePoints (N n : Nat) (x : Samples) : Samples :=
  (List.range N).foldl
    (fun x i => x.setPoint i (Config.freeWord (n + 2 * i), Config.freeWord (n + 2 * i + 1))) x

/-- R113: a command that is running when reset is asserted is abandoned, and its words `i < LN` become unspecified. -/
def abandonCommand (s : State) : State :=
  if s.status.busy then
    { s with
      samples := scramblePoints s.ln.toNat s.fresh s.samples
      fresh := s.fresh + 2 * s.ln.toNat }
  else s

/-- `ResetBody` (R111): the registers go to 0, the latches to unspecified values; the sample memories keep their words
unless a command was running. -/
def resetBody (s : State) : State :=
  scrambleLatches
    { abandonCommand s with status := Status.zero, reLen := 0, imLen := 0, irqEn := false }

end Sys2Proof.Machine
end

