-- ==== Sys2Proof/Machine/Step.lean ====
section
/-!
DEFINITION. One step of the machine: one access of the host, one step of the engine, or the reset input (10_state R17).
-/

namespace Sys2Proof.Machine

/-- One step of whoever moves next (R17; no two steps happen at once, 60_exceptions R102). A machine with BUSY = 0 and no
host line left stays as it is (60_exceptions R110). -/
def step (s : State) : Host.Outcome State Fault Refusal :=
  match nextTurn s with
  | .host => hostStep (dropTurn s)
  | .internal => engineInternal (dropTurn s)
  | .complete => engineCompletes (dropTurn s)
  | .reset => .next (resetBody (dropTurn s))

/-- `s` with the host about to write the command word to CMD: the block has no instruction fetch (20_memory R47), and "one
CMD write is one command" (30_encoding R52). DESIGN CHOICE, log entry 8. -/
def State.withFetchWord (s : State) (nbits w : Nat) : State := stageCmdWrite (tableWord nbits w) s

end Sys2Proof.Machine
end

