-- ==== Sys2Proof/Machine/Script.lean ====
section
/-!
DEFINITION. Host scripts (30_encoding R53 to R55): the lines of R54 and the pseudo-lines of R55, each as the host
accesses it issues.
-/

namespace Sys2Proof.Machine

/-- A value of a script line (R54): a 32-bit hex literal or decimal integer, or `f:<decimal>`, here
`(-1)^neg * digits / 10^places`. -/
inductive ScriptValue where
  | word (w : Word)
  | decimal (neg : Bool) (digits places : Nat)
deriving DecidableEq, Repr

/-- The word of a value; `f:<decimal>` is RN32 of the decimal (R54, 00_scope R8). RN32 leaves the sign of a zero to its
caller and R54 gives none: a free value (DESIGN CHOICE, log entry 12). -/
def valueWord : ScriptValue → Word
  | .word w => w
  | .decimal neg digits places =>
    if digits = 0 then F32.zero Config.decimalZeroSign else F32.rn32 neg digits (10 ^ places)

/-- A target of a script line (R54): a register name, `RE[i]` or `IM[i]`, or a literal offset. -/
inductive ScriptTarget where
  | reg (r : Reg)
  | sample (c : Chan) (i : Nat)
  | literal (off : BitVec 22)
deriving DecidableEq, Repr

/-- `off(target)` of R54, in the 22 bits of the port (00_scope R6; beyond them DESIGN CHOICE, log entry 12). -/
def targetOffset : ScriptTarget → BitVec 22
  | .reg r => BitVec.ofNat 22 (regOffset r)
  | .sample c i => BitVec.ofNat 22 (sampleOffset c i)
  | .literal off => off

/-- A line of a host script: the forms of R54, and the pseudo-lines WAIT and LEN of R55. `R <target>` may state the value
the rules give it: `R <target> = <value>`. -/
inductive ScriptLine where
  | write (t : ScriptTarget) (v : ScriptValue)
  | read (t : ScriptTarget) (stated : Option ScriptValue)
  | poll (t : ScriptTarget) (mask value : ScriptValue)
  | cmd (i : Instr)
  | wait
  | len (n : ScriptValue)
deriving DecidableEq, Repr

/-- `MemWrite(off, 4, v)` as a host line (R54). -/
def writeLine (off : BitVec 22) (v : Word) : HostLine := .access { dir := .write, off := off, size := .word, data := v }

/-- `MemRead(off, 4)` as a host line (R54). -/
def readLine (off : BitVec 22) : HostLine := .access { dir := .read, off := off, size := .word, data := 0 }

/-- The accesses a line issues (R54). `WAIT` is `POLL STATUS, 2, 2`, and `LEN n` is `W RE_LEN, n` then `W IM_LEN, n`
(R55). -/
def lineAccesses : ScriptLine → List HostLine
  | .write t v => [writeLine (targetOffset t) (valueWord v)]
  | .read t _ => [readLine (targetOffset t)]
  | .poll t mask value => [.poll (targetOffset t) (valueWord mask) (valueWord value)]
  | .cmd i => [writeLine (targetOffset (.reg .cmd)) (encode i)]
  | .wait => [.poll (targetOffset (.reg .status)) 0x00000002 0x00000002]
  | .len n => [writeLine (targetOffset (.reg .reLen)) (valueWord n), writeLine (targetOffset (.reg .imLen)) (valueWord n)]

/-- The word that `R <target> = <value>` states (R54); none for every other line, which states nothing. -/
def statedWord : ScriptLine → Option Word
  | .read _ stated => stated.map valueWord
  | .write _ _ | .poll _ _ _ | .cmd _ | .wait | .len _ => none

/-- What a line states is what the rules give, in the state after its accesses: the value stated is the one its read
returned (R54). The statement issues no access and changes nothing. -/
def statedHolds (l : ScriptLine) (s : State) : Bool :=
  match statedWord l with
  | none => true
  | some w => s.rdata == w

/-- The host lines of a script (R54). -/
def scriptAccesses (p : List ScriptLine) : List HostLine := p.flatMap lineAccesses

/-- A state whose host is about to run a script, with the order of moves left to `turns`. -/
def loadScript (p : List ScriptLine) (s : State) : State := { s with script := scriptAccesses p }

end Sys2Proof.Machine
end

