-- ==== Sys2Proof/Safety.lean ====
section
/-!
DEFINITION. What a good state of the block is, in the terms claims use.
-/

namespace Sys2Proof.Machine

/-- Every byte a channel's memory lists lies in that channel's window of `4 * N_MAX` bytes (20_memory R33). -/
abbrev InWindow (s : State) (c : Chan) : Prop :=
  ∀ cell ∈ s.samples.chan c, chanBase c ≤ cell.1 ∧ cell.1 < chanBase c + 4 * nMax s

/-- The invariant of the block. -/
structure BlockInv (s : State) : Prop where
  /-- the sample memories keep their canonical form -/
  reWf : s.samples.re.wf
  imWf : s.samples.im.wf
  /-- they hold no byte outside their windows (R33) -/
  reWindow : InWindow s .re
  imWindow : InWindow s .im
  /-- "BUSY = 1 implies DONE = 0 and ERR = 0" (10_state R20) -/
  busyClear : s.status.busy = true → s.status.done = false ∧ s.status.err = 0
  /-- "The legal values of ERR are 0 to 5" (R20) -/
  errLegal : s.status.err.toNat ≤ 5
  /-- while BUSY = 1 the latches hold what an accept leaves (R28, 40_command R56) -/
  latches : s.status.busy = true → latchesConsistent s = true
  /-- and LN is the length both registers still hold (R28; writes are refused while busy, R21) -/
  lengths : s.status.busy = true → s.ln = s.reLen ∧ s.ln = s.imLen

end Sys2Proof.Machine
end

