-- ==== Sys2Proof/Certificates/Slice0/Obligations.lean ====
section
/-!
DEFINITION. The statements for the provers, and the words they are stated in. The reference functions below say what the
rules give for each index; the machine's loops are stated to compute them.
-/

namespace Sys2Proof.Claims

open Sys2Proof Sys2Proof.Machine

/-! ### Words used by the statements -/

/-- The lengths let a command through: both registers hold 2^m, within N_MAX (00_scope R15, 60_exceptions R92 to R94). -/
def LengthsAre (s : State) (m : Nat) : Prop :=
  s.reLen = s.imLen ∧ s.reLen.toNat = 2 ^ m ∧ m ≤ s.log2NMax.val

/-- `s` after the acceptance of a command with opcode `op` and stage field `k`, for length 2^m (40_command R56): the four
latches are loaded, BUSY = 1, DONE = 0, ERR = 0, and nothing else changes. -/
def accepted (op : BitVec 4) (k m : Nat) (s : State) : State :=
  { s with
    status := { s.status with busy := true, done := false, err := 0 }
    lop := op, ln := s.reLen, lm := BitVec.ofNat 5 m, ls := BitVec.ofNat 5 k }

/-- `s` after a rejection with error code `e` (R56, 60_exceptions R97): DONE = 1 and ERR = e, and nothing else changes. -/
def rejected (e : BitVec 4) (s : State) : State := { s with status := { s.status with done := true, err := e } }

/-- `u` is `t` after the completion of a command of length `N` (R58): BUSY = 0, DONE = 1, every other register and flag as
before. The latches and the working state are unspecified once BUSY = 0 (10_state R28, R29, log entry 5), so nothing is
said of them. Of the sample memories only the bytes of the words 0 .. N-1 may differ (20_memory R42), unwritten bytes
outside them staying unwritten. -/
def CompletedFrom (t u : State) (N : Nat) : Prop :=
  u = { t with
        status := { t.status with busy := false, done := true }
        samples := u.samples, lop := u.lop, ln := u.ln, lm := u.lm, ls := u.ls, seq := u.seq, fresh := u.fresh } ∧
    ∀ c a, a < chanBase c ∨ chanBase c + 4 * N ≤ a → (u.samples.chan c).read a = (t.samples.chan c).read a

/-- The command `i`, submitted in `s`, is accepted and completes in `u`. -/
def RunsTo (i : Instr) (s u : State) : Prop :=
  ∃ t, exec i s = .next t ∧ t.status.busy = true ∧ engineCompletes t = .next u

/-- The commands of a list, one after another, each accepted and completed. -/
inductive RunAll : List Instr → State → State → Prop where
  | nil (s : State) : RunAll [] s s
  | cons {i : Instr} {l : List Instr} {s t u : State} : RunsTo i s t → RunAll l t u → RunAll (i :: l) s u

/-! ### Reference functions -/

/-- The operations the stages need. -/
structure Arith (α : Type) where
  add : α → α → α
  sub : α → α → α
  mul : α → α → α
  one : α
  increment : Nat → α

/-- The block's arithmetic on complex binary32 samples (42_butterfly R69, R70, R72, 10_state R26). -/
def binary32 : Arith (Word × Word) :=
  { add := cadd, sub := csub, mul := cmul, one := unitRotation, increment := twiddle }

/-- `W(s, j+1)` of 42_butterfly R75. -/
def rotation {α : Type} (A : Arith α) (s : Nat) : Nat → α
  | 0 => A.one
  | j + 1 => A.mul (rotation A s j) (A.increment s)

/-- Stage `s` at index `i` by the closed form of R75: with k the lower index of i's pair and t the rotated partner, k
gets the sum and k + le2 the difference. -/
def stageAt {α : Type} (A : Arith α) (s : Nat) (x : Nat → α) (i : Nat) : α :=
  let le2 := 2 ^ (s - 1)
  let r := i % 2 ^ s
  if r < le2 then A.add (x i) (A.mul (x (i + le2)) (rotation A s r))
  else A.sub (x (i - le2)) (A.mul (x i) (rotation A s (r - le2)))

/-- Stages 1 .. m in ascending order (R73). -/
def stagesAt {α : Type} (A : Arith α) (m : Nat) (x : Nat → α) : Nat → α :=
  (List.range' 1 m).foldl (fun y s => stageAt A s y) x

/-- Bit-reversed order, then stages 1 .. m (R78, 41_permutation R65). -/
def fftAt {α : Type} (A : Arith α) (m : Nat) (x : Nat → α) : Nat → α :=
  stagesAt A m (fun p => x (revBits m p))

/-- The conjugate of a binary32 complex value: bit 31 of the imaginary part flipped (00_scope R12). -/
def conjugate (p : Word × Word) : Word × Word := (p.1, p.2 ^^^ 0x80000000)

/-- The pattern of 2^-m (43_inverse R84): sign 0, exponent field 127 - m, fraction 0. -/
def powerPattern (m : Nat) : Word := BitVec.ofNat 32 ((127 - m) * 2 ^ 23)

/-- A binary32 complex value times 2^-m (R84). -/
def scaleBy (m : Nat) (p : Word × Word) : Word × Word :=
  (F32.fmul p.1 (powerPattern m), F32.fmul p.2 (powerPattern m))

/-- The pairwise sums `S(p, 2^d)` of 42_butterfly R81. -/
def pairSum (y : Nat → Word) : (d p : Nat) → Word
  | 0, p => y p
  | d + 1, p => F32.fadd (pairSum y d p) (pairSum y d (p + 2 ^ d))

/-- `Validate(v)` of 60_exceptions R96, on the bits of the word as a number. -/
def validateCode (v : Word) (s : State) : BitVec 4 :=
  let op := v.toNat % 16
  let S := v.toNat / 16 % 32
  let N := s.reLen.toNat
  if 8 ≤ op ∨ 512 ≤ v.toNat ∨ (op ≠ 5 ∧ S ≠ 0) then 1
  else if op = 0 then 0
  else if s.reLen ≠ s.imLen then 2
  else if ¬∃ m ∈ List.range 32, N = 2 ^ m then 3
  else if 2 ^ s.log2NMax.val < N then 4
  else if op = 5 ∧ (S = 0 ∨ N < 2 ^ S) then 5
  else 0

/-- The mapped offsets of 20_memory R33, as numbers. -/
def Mapped (s : State) (off : Nat) : Prop :=
  off ≤ 0x17 ∨ (0x100000 ≤ off ∧ off < 0x100000 + 4 * 2 ^ s.log2NMax.val) ∨
    (0x200000 ≤ off ∧ off < 0x200000 + 4 * 2 ^ s.log2NMax.val)

/-- A legal access (R34): 4 bytes, aligned, mapped. -/
def Legal (s : State) (a : Access) : Prop := a.size = .word ∧ a.off.toNat % 4 = 0 ∧ Mapped s a.off.toNat

/-- The accesses that a busy block refuses (60_exceptions R98): legal, and to a sample word, or a write to CMD, RE_LEN or
IM_LEN. -/
def RefusedWhileBusy (s : State) (a : Access) : Prop :=
  Legal s a ∧ (0x100000 ≤ a.off.toNat ∨ (a.dir = .write ∧ a.off.toNat ∈ [0x000, 0x008, 0x00C]))

/-- The host moves next and its next line is this access, with `rest` after it. -/
def HostIssues (s : State) (a : Access) (rest : List HostLine) : Prop :=
  nextTurn s = .host ∧ s.script = .access a :: rest

/-- The state in which the host's access takes effect: its turn and its line are taken. -/
def afterIssue (s : State) (rest : List HostLine) : State := { s with turns := s.turns.tail, script := rest }

/-- A legal word write (30_encoding R54). -/
def wordWrite (off : BitVec 22) (v : Word) : Access := { dir := .write, off := off, size := .word, data := v }

/-- A legal word read (R54). -/
def wordRead (off : BitVec 22) : Access := { dir := .read, off := off, size := .word, data := 0 }

/-- The real value of a finite pattern (00_scope R7). -/
noncomputable def realValue (v : Word) : ℝ := (F32.value v : ℝ) / 2 ^ 149

/-- `v` is the finite pattern nearest to `r`: every finite pattern of another value is farther away, so that the rounding
of R8 has no tie to settle; an exact zero is +0 (10_state R26). -/
def RoundedFrom (v : Word) (r : ℝ) : Prop :=
  F32.isFinite v = true ∧ (r = 0 → v = 0x00000000) ∧
    ∀ w, F32.isFinite w = true → realValue w ≠ realValue v → |realValue v - r| < |realValue w - r|

/-- Two states show the host the same block: every register, the interrupt and every sample byte (40_command R58). -/
def SameToHost (s t : State) : Prop :=
  s.status = t.status ∧ s.reLen = t.reLen ∧ s.imLen = t.imLen ∧ s.irqEn = t.irqEn ∧ irq s = irq t ∧
    s.log2NMax = t.log2NMax ∧ s.samples = t.samples

end Sys2Proof.Claims

open Sys2Proof Sys2Proof.Machine Sys2Proof.Claims

/-! ### Encoding (30_encoding) -/

/-- R51, R53: decoding the encoded word of a well-formed command gives the command back, STAGE with every index. -/
def Obligations.EncodedCommandsDecodeBack : Prop := ∀ i, wellFormed i = true → decode (encode i) = .ok i

/-- R49, R53: a word that decodes to a command is that command's encoding, and the command is well formed. -/
def Obligations.DecodedWordsEncodeBack : Prop :=
  ∀ w i, decode w = .ok i → wellFormed i = true ∧ encode i = w

/-- R51: the ILLEGAL words are exactly those with OP >= 8, a set bit of 31:9, or a nonzero S on an opcode other than 5. -/
def Obligations.IllegalWordsAreExactly : Prop :=
  ∀ w : Word, (∃ e, decode w = .error e) ↔
    (8 ≤ w.toNat % 16 ∨ 512 ≤ w.toNat ∨ (w.toNat % 16 ≠ 5 ∧ w.toNat / 16 % 32 ≠ 0))

/-- R49: the rows of the opcode map are disjoint, and a word decodes to a command exactly when it selects a row, which is
then the row of that command's mnemonic. -/
def Obligations.WordsDecodeByTheirRow : Prop :=
  (∀ w : Word, ∀ r ∈ opcodeMap, ∀ r' ∈ opcodeMap, r.selects w = true → r'.selects w = true → r = r') ∧
  (∀ w : Word, (∃ e, decode w = .error e) ↔ ∀ r ∈ opcodeMap, r.selects w = false) ∧
  (∀ (w : Word) (i : Instr), decode w = .ok i → ∃ r ∈ opcodeMap, r.selects w = true ∧ r.mnemonic = mnemonic i)

/-- R49, R53: the words the spec writes out, the eight match words and the four examples of STAGE, decode to the commands
it names, and so does STAGE with the largest index. -/
def Obligations.SpecWordsDecode : Prop :=
  decode 0x00000000 = .ok .nop ∧ decode 0x00000001 = .ok .fft ∧ decode 0x00000002 = .ok .ifft ∧
  decode 0x00000003 = .ok .bitrev ∧ decode 0x00000004 = .ok .stages ∧ decode 0x00000005 = .ok (.stage 0) ∧
  decode 0x00000015 = .ok (.stage 1) ∧ decode 0x00000025 = .ok (.stage 2) ∧ decode 0x00000035 = .ok (.stage 3) ∧
  decode 0x00000105 = .ok (.stage 16) ∧ decode 0x000001F5 = .ok (.stage 31) ∧ decode 0x00000006 = .ok .conj ∧
  decode 0x00000007 = .ok .scale

/-! ### Submission (40_command R56, R57; 60_exceptions R90 to R97) -/

/-- R56, 20_memory R36: when the host's next access writes a command word to CMD, a step runs the decoded command on the
state with that access taken, and an ILLEGAL word is rejected with ERR = 1 (R91). `withFetchWord` is such a state. -/
def Obligations.StepRunsDecodedCommand : Prop :=
  (∀ s v rest i, HostIssues s (wordWrite 0x000 v) rest → s.status.busy = false → decode v = .ok i →
    step s = exec i (afterIssue s rest)) ∧
  (∀ s v rest e, HostIssues s (wordWrite 0x000 v) rest → s.status.busy = false → decode v = .error e →
    step s = .next (rejected 1 (afterIssue s rest))) ∧
  (∀ s v i, s.status.busy = false → decode v = .ok i → step (s.withFetchWord 32 v.toNat) = exec i s)

/-- R17, R58, R110, 70_reset R121: who moves in a step is the head of the list of turns. The host's turn does the access of
its next line (a POLL line: PollRepeatsUntilMatch), and with no line left takes only the turn; the engine's turn completes
the command or takes an internal step; the reset's turn resets. With no turn listed a busy engine completes, and an idle block
whose host has no line left stays as it is. The order with no turn listed is the model's choice (log entry 6). -/
def Obligations.StepIsOneAgentsMove : Prop :=
  ∀ s, (∀ t ts, s.turns = t :: ts → nextTurn s = t) ∧
    (∀ a rest, HostIssues s a rest → step s = access a (afterIssue s rest)) ∧
    (nextTurn s = .host → s.script = [] → step s = .next { s with turns := s.turns.tail }) ∧
    (nextTurn s = .complete → step s = engineCompletes { s with turns := s.turns.tail }) ∧
    (nextTurn s = .internal → step s = engineInternal { s with turns := s.turns.tail }) ∧
    (nextTurn s = .reset → step s = .next (resetBody { s with turns := s.turns.tail })) ∧
    (s.turns = [] → s.status.busy = true → nextTurn s = .complete) ∧
    (s.turns = [] → s.status.busy = false → s.script = [] → step s = .next s)

/-- R56, R58: a command written to CMD while idle, with no turn listed, has run two steps later: accepted, then
completed. The order of the two steps with no turn listed is the model's choice (log entry 6). -/
def Obligations.SubmittedCommandRunsInTwoSteps : Prop :=
  ∀ s i u, wellFormed i = true → s.status.busy = false → s.turns = [] → RunsTo i s u →
    Host.Core.run Sys2Proof.core 2 (s.withFetchWord 32 (encode i).toNat) = .next u

/-- R56, R96, R97: a CMD write while idle gets the code of the first failing check and then changes only DONE and ERR;
with code 0 it is NOP, or it is accepted, loads the four latches and sets BUSY. -/
def Obligations.SubmissionFollowsValidation : Prop :=
  ∀ s v, s.status.busy = false →
    (validateCode v s ≠ 0 → access (wordWrite 0x000 v) s = .next (rejected (validateCode v s) s)) ∧
    (validateCode v s = 0 → v.toNat % 16 = 0 → access (wordWrite 0x000 v) s = .next (rejected 0 s)) ∧
    (validateCode v s = 0 → v.toNat % 16 ≠ 0 → ∃ m, s.reLen.toNat = 2 ^ m ∧
      access (wordWrite 0x000 v) s = .next (accepted (BitVec.ofNat 4 (v.toNat % 16)) (v.toNat / 16 % 32) m s))

/-- R57: while BUSY = 1 a CMD write, of any word, does only HAZ <- 1; so does the meaning of every command. -/
def Obligations.BusySubmissionOnlySetsHaz : Prop :=
  ∀ s, s.status.busy = true →
    (∀ v, access (wordWrite 0x000 v) s = .next { s with status := { s.status with haz := true } }) ∧
    (∀ i, exec i s = .next { s with status := { s.status with haz := true } })

/-- R92 to R95 for each command: with bad lengths every command but NOP is rejected with the first code that applies, and
STAGE k also when k is 0 or above m. -/
def Obligations.CommandsRejectBadLengths : Prop :=
  ∀ s i, s.status.busy = false → i ≠ .nop →
    (s.reLen ≠ s.imLen → exec i s = .next (rejected 2 s)) ∧
    (s.reLen = s.imLen → (¬∃ m, s.reLen.toNat = 2 ^ m) → exec i s = .next (rejected 3 s)) ∧
    (∀ m, s.reLen = s.imLen → s.reLen.toNat = 2 ^ m → s.log2NMax.val < m → exec i s = .next (rejected 4 s)) ∧
    (∀ m k, LengthsAre s m → i = .stage k → (k = 0 ∨ m < k) → exec i s = .next (rejected 5 s))

/-- 00_scope R15: `isPow2(n)` holds iff n != 0 and n AND (n - 1) = 0; that is exactly on the powers of two, and `log2` is
then the one exponent. -/
def Obligations.PowerOfTwoTest : Prop :=
  ∀ n : Word, (isPow2 n = true ↔ n ≠ 0 ∧ n &&& (n - 1) = 0) ∧ (isPow2 n = true ↔ ∃ m, n.toNat = 2 ^ m) ∧
    ∀ m, n.toNat = 2 ^ m ↔ isPow2 n = true ∧ log2 n = m

/-- The frame of a submission (R56, R97): whatever it answers, no sample byte, length register, IRQ_EN, CAP, BUSERR or
host state changes; while idle HAZ does not change either; and the latches change only with an acceptance. -/
def Obligations.SubmissionFrame : Prop :=
  ∀ i s t, exec i s = .next t →
    t.samples = s.samples ∧ t.reLen = s.reLen ∧ t.imLen = s.imLen ∧ t.irqEn = s.irqEn ∧ t.log2NMax = s.log2NMax ∧
    t.status.buserr = s.status.buserr ∧ t.seq = s.seq ∧ t.rdata = s.rdata ∧ t.script = s.script ∧ t.turns = s.turns ∧
    t.fresh = s.fresh ∧ (s.status.busy = false → t.status.haz = s.status.haz) ∧
    (¬(s.status.busy = false ∧ t.status.busy = true) →
      t.lop = s.lop ∧ t.ln = s.ln ∧ t.lm = s.lm ∧ t.ls = s.ls ∧ t.status.busy = s.status.busy)

/-! ### The commands -/

/-- R62: NOP, whatever the lengths, leaves DONE = 1 and ERR = 0 in the write's own step and changes nothing else; it then
asserts irq exactly when IRQ_EN.EN = 1; 0x00000000 is its only word, every other word with OP = 0 being ILLEGAL. -/
def Obligations.NopCompletesAtOnce : Prop :=
  (∀ s, s.status.busy = false → exec .nop s = .next (rejected 0 s) ∧ irq (rejected 0 s) = s.irqEn) ∧
  decode 0x00000000 = .ok .nop ∧ (∀ w : Word, w.toNat % 16 = 0 → w ≠ 0 → ∃ e, decode w = .error e)

/-- R64, R65: BITREV is accepted with the lengths of 2^m, and its completion moves to each index i < N the sample of
rev_m(i), bit for bit. -/
def Obligations.BitrevReversesIndices : Prop :=
  ∀ s m, s.status.busy = false → LengthsAre s m →
    exec .bitrev s = .next (accepted 0x3 0 m s) ∧
    ∃ u, engineCompletes (accepted 0x3 0 m s) = .next u ∧ CompletedFrom (accepted 0x3 0 m s) u (2 ^ m) ∧
      ∀ i < 2 ^ m, u.samples.point i = s.samples.point (revBits m i)

/-- R76, R75: STAGE k with 1 <= k <= m is accepted, and its completion leaves at each index the closed form of stage k. -/
def Obligations.StageComputesClosedForm : Prop :=
  ∀ s m k, s.status.busy = false → LengthsAre s m → 1 ≤ k → k ≤ m →
    exec (.stage k) s = .next (accepted 0x5 k m s) ∧
    ∃ u, engineCompletes (accepted 0x5 k m s) = .next u ∧ CompletedFrom (accepted 0x5 k m s) u (2 ^ m) ∧
      ∀ i < 2 ^ m, u.samples.point i = stageAt binary32 k s.samples.point i

/-- R77, R73: STAGES is accepted, and its completion leaves at each index the stages 1 .. m in ascending order. -/
def Obligations.StagesComputeAllStages : Prop :=
  ∀ s m, s.status.busy = false → LengthsAre s m →
    exec .stages s = .next (accepted 0x4 0 m s) ∧
    ∃ u, engineCompletes (accepted 0x4 0 m s) = .next u ∧ CompletedFrom (accepted 0x4 0 m s) u (2 ^ m) ∧
      ∀ i < 2 ^ m, u.samples.point i = stagesAt binary32 m s.samples.point i

/-- R78: FFT is accepted, and its completion leaves at each index the stages 1 .. m of the bit-reversed samples. -/
def Obligations.FftComputesTransform : Prop :=
  ∀ s m, s.status.busy = false → LengthsAre s m →
    exec .fft s = .next (accepted 0x1 0 m s) ∧
    ∃ u, engineCompletes (accepted 0x1 0 m s) = .next u ∧ CompletedFrom (accepted 0x1 0 m s) u (2 ^ m) ∧
      ∀ i < 2 ^ m, u.samples.point i = fftAt binary32 m s.samples.point i

/-- R86: IFFT is accepted, and its completion leaves at each index the conjugate of 2^-m times the transform of the
conjugated samples. -/
def Obligations.IfftComputesInverse : Prop :=
  ∀ s m, s.status.busy = false → LengthsAre s m →
    exec .ifft s = .next (accepted 0x2 0 m s) ∧
    ∃ u, engineCompletes (accepted 0x2 0 m s) = .next u ∧ CompletedFrom (accepted 0x2 0 m s) u (2 ^ m) ∧
      ∀ i < 2 ^ m, u.samples.point i =
        conjugate (scaleBy m (fftAt binary32 m (fun p => conjugate (s.samples.point p)) i))

/-- R82, R83: CONJ is accepted, and its completion flips bit 31 of IM[i] for every i < N and leaves RE untouched. -/
def Obligations.ConjFlipsImaginarySigns : Prop :=
  ∀ s m, s.status.busy = false → LengthsAre s m →
    exec .conj s = .next (accepted 0x6 0 m s) ∧
    ∃ u, engineCompletes (accepted 0x6 0 m s) = .next u ∧ CompletedFrom (accepted 0x6 0 m s) u (2 ^ m) ∧
      u.samples.re = s.samples.re ∧ ∀ i < 2 ^ m, u.samples.get .im i = s.samples.get .im i ^^^ 0x80000000

/-- R84, R85: SCALE is accepted, and its completion multiplies both parts of every sample i < N by the pattern of 2^-m. -/
def Obligations.ScaleMultipliesBothChannels : Prop :=
  ∀ s m, s.status.busy = false → LengthsAre s m →
    exec .scale s = .next (accepted 0x7 0 m s) ∧
    ∃ u, engineCompletes (accepted 0x7 0 m s) = .next u ∧ CompletedFrom (accepted 0x7 0 m s) u (2 ^ m) ∧
      ∀ i < 2 ^ m, ∀ c, u.samples.get c i = F32.fmul (s.samples.get c i) (powerPattern m)

/-! ### Properties of the commands -/

/-- 00_scope R16: `rev_m` reverses the m binary digits. -/
def Obligations.ReversalReversesDigits : Prop :=
  revBits 0 0 = 0 ∧
  ∀ m i, i < 2 ^ m → revBits m i < 2 ^ m ∧ ∀ b < m, (revBits m i).testBit b = i.testBit (m - 1 - b)

/-- R65: each time the test `i < nd` of the permutation is evaluated, the cursor is rev_m(i). -/
def Obligations.CursorIsReversedIndex : Prop :=
  ∀ m x i, 1 ≤ m → m ≤ 16 → 1 ≤ i → i + 2 ≤ 2 ^ m →
    ((List.range' 1 (i - 1)).foldl (bitRevStep (2 ^ m)) (2 ^ m / 2, x)).1 = revBits m i

/-- R68: BITREV twice restores every sample, within the transform and outside it. -/
def Obligations.BitrevIsInvolution : Prop :=
  ∀ m x i, m ≤ 16 → (bitRevBody (2 ^ m) (bitRevBody (2 ^ m) x)).point i = x.point i

/-- R55: FFT leaves the same RE, IM and STATUS as BITREV and then STAGES. -/
def Obligations.FftIsBitrevThenStages : Prop :=
  ∀ s m, s.status.busy = false → LengthsAre s m →
    ∃ u v, RunsTo .fft s u ∧ RunAll [.bitrev, .stages] s v ∧ u.samples = v.samples ∧ u.status = v.status

/-- R55, R77: for m >= 1, STAGES leaves the same RE and IM as STAGE 1, ..., STAGE m one after another. -/
def Obligations.StagesAreEachStageInOrder : Prop :=
  ∀ s m, s.status.busy = false → LengthsAre s m → 1 ≤ m →
    ∃ u v, RunsTo .stages s u ∧ RunAll ((List.range' 1 m).map Instr.stage) s v ∧ u.samples = v.samples

/-- R87: IFFT leaves the same RE and IM as CONJ, FFT, SCALE, CONJ one after another on the same length. -/
def Obligations.IfftIsFourCommands : Prop :=
  ∀ s m, s.status.busy = false → LengthsAre s m →
    ∃ u v, RunsTo .ifft s u ∧ RunAll [.conj, .fft, .scale, .conj] s v ∧ u.samples = v.samples

/-- R81: with IM all +0, RE finite and no partial sum overflowing, FFT leaves IM[0] = +0 and RE[0] the pairwise sum of the
permuted inputs. -/
def Obligations.DcTermIsPairwiseSum : Prop :=
  ∀ s m, s.status.busy = false → LengthsAre s m →
    (∀ i < 2 ^ m, s.samples.get .im i = 0 ∧ F32.isFinite (s.samples.get .re i) = true) →
    (∀ d p, d ≤ m → p < 2 ^ m → p % 2 ^ d = 0 →
      F32.isFinite (pairSum (fun q => s.samples.get .re (revBits m q)) d p) = true) →
    ∃ u, RunsTo .fft s u ∧ u.samples.get .im 0 = 0 ∧
      u.samples.get .re 0 = pairSum (fun q => s.samples.get .re (revBits m q)) m 0

/-- R79: with exact arithmetic in place of binary32, the same stages on the bit-reversed samples compute
X[k] = sum over n of x[n] * e^(+2 pi j n k / N), in natural order and unscaled. -/
def Obligations.ExactTransformIsPositiveExponentDft : Prop :=
  ∀ (m : Nat) (x : Nat → ℂ) (k : Nat), k < 2 ^ m →
    fftAt { add := fun a b => a + b, sub := fun a b => a - b, mul := fun a b => a * b, one := 1,
            increment := fun s => Complex.exp (Real.pi * Complex.I / (2 ^ (s - 1) : ℕ)) } m x k =
      ∑ n ∈ Finset.range (2 ^ m), x n * Complex.exp (2 * Real.pi * Complex.I * n * k / (2 ^ m : ℕ))

/-- R60: a command's result at the words of its length depends only on those words, LN, LM, LS and the opcode: two busy
states that agree on these complete with the same words, whatever else they hold. -/
def Obligations.ResultDependsOnLatchedWordsOnly : Prop :=
  ∀ s t s' t', s.status.busy = true → t.status.busy = true → s.lop = t.lop → s.ln = t.ln → s.lm = t.lm → s.ls = t.ls →
    (∀ i < s.ln.toNat, s.samples.point i = t.samples.point i) →
    engineCompletes s = .next s' → engineCompletes t = .next t' →
    ∀ i < s.ln.toNat, s'.samples.point i = t'.samples.point i

/-- 10_state R26: for each stage s of 1 .. 16 the twiddle increment is cos(pi / 2^(s-1)) and the positive
sin(pi / 2^(s-1)), each the finite pattern nearest to the exact real value. -/
def Obligations.TwiddleRomIsRoundedCosineAndSine : Prop :=
  ∀ s, 1 ≤ s → s ≤ 16 →
    RoundedFrom (twiddle s).1 (Real.cos (Real.pi / 2 ^ (s - 1))) ∧
      RoundedFrom (twiddle s).2 (Real.sin (Real.pi / 2 ^ (s - 1)))

/-! ### Binary32 arithmetic (00_scope R7 to R13) -/

/-- R12: fneg flips bit 31 of every pattern and no other bit. -/
def Obligations.NegationFlipsOnlyBit31 : Prop :=
  ∀ (a : Word) (b : Nat), b < 32 → (F32.fneg a).getLsbD b = if b = 31 then !a.getLsbD 31 else a.getLsbD b

/-- R8: RN32 of a = num / den gives the signed zero for 0, the signed infinity from 2^128 - 2^103 on, and otherwise a
finite pattern of that sign nearest to a among all finite patterns, with an even fraction on a tie. -/
def Obligations.RoundingIsNearestEven : Prop :=
  ∀ (neg : Bool) (num den : Nat), 0 < den →
    (num = 0 → F32.rn32 neg num den = if neg then 0x80000000 else 0x00000000) ∧
    ((2 ^ 128 - 2 ^ 103) * den ≤ num → F32.rn32 neg num den = if neg then 0xFF800000 else 0x7F800000) ∧
    (0 < num → num < (2 ^ 128 - 2 ^ 103) * den →
      F32.isFinite (F32.rn32 neg num den) = true ∧ F32.sign (F32.rn32 neg num den) = neg ∧
      ∀ v : Word, F32.isFinite v = true →
        let here := ((F32.magnitude (F32.rn32 neg num den) * den : Nat) : Int) - ((num * 2 ^ 149 : Nat) : Int)
        let there := ((F32.magnitude v * den : Nat) : Int) - ((num * 2 ^ 149 : Nat) : Int)
        here.natAbs ≤ there.natAbs ∧
          (here.natAbs = there.natAbs → F32.magnitude v ≠ F32.magnitude (F32.rn32 neg num den) →
            F32.fracField (F32.rn32 neg num den) % 2 = 0))

/-- R9, R11: the exact sum or product of finite operands is what RN32 rounds: a zero sum has the sign rule of R9, a zero
product the XOR of the signs. An infinity plus a finite value or plus itself is that infinity, and plus the other infinity
CNAN; an infinity times a zero is CNAN, and times another non-NaN value the infinity with the XOR of the signs. A NaN
operand gives CNAN. -/
def Obligations.SumsAndProductsRoundOnce : Prop :=
  ∀ a b,
    (F32.isFinite a = true → F32.isFinite b = true →
      (F32.value a + F32.value b = 0 →
        F32.fadd a b = if a = 0x80000000 ∧ b = 0x80000000 then 0x80000000 else 0x00000000) ∧
      (F32.value a + F32.value b ≠ 0 →
        F32.fadd a b = F32.rn32 (decide (F32.value a + F32.value b < 0)) (F32.value a + F32.value b).natAbs (2 ^ 149)) ∧
      F32.fmul a b = F32.rn32 (F32.sign a != F32.sign b) (F32.value a * F32.value b).natAbs (2 ^ 298)) ∧
    (F32.isInf a = true →
      (F32.isFinite b = true → F32.fadd a b = a ∧ F32.fadd b a = a) ∧
      F32.fadd a a = a ∧
      (F32.isInf b = true → a ≠ b → F32.fadd a b = 0x7FC00000) ∧
      (F32.isZero b = true → F32.fmul a b = 0x7FC00000 ∧ F32.fmul b a = 0x7FC00000) ∧
      (F32.isNaN b = false → F32.isZero b = false →
        F32.fmul a b = (if F32.sign a = F32.sign b then 0x7F800000 else 0xFF800000) ∧ F32.fmul b a = F32.fmul a b)) ∧
    (F32.isNaN a = true ∨ F32.isNaN b = true → F32.fadd a b = 0x7FC00000 ∧ F32.fmul a b = 0x7FC00000)

/-- R9, R11: every NaN that fadd, fsub or fmul returns is the canonical one, and a NaN operand always gives it. -/
def Obligations.NanResultsAreCanonical : Prop :=
  ∀ a b,
    (F32.isNaN a = true ∨ F32.isNaN b = true →
      F32.fadd a b = 0x7FC00000 ∧ F32.fsub a b = 0x7FC00000 ∧ F32.fmul a b = 0x7FC00000) ∧
    (F32.isNaN (F32.fadd a b) = true → F32.fadd a b = 0x7FC00000) ∧
    (F32.isNaN (F32.fsub a b) = true → F32.fsub a b = 0x7FC00000) ∧
    (F32.isNaN (F32.fmul a b) = true → F32.fmul a b = 0x7FC00000)

/-- R10: fsub is fadd of the negation; it returns CNAN for a NaN operand and for infinities of the same sign; the exact
zero x - x is +0. -/
def Obligations.SubtractionCorners : Prop :=
  ∀ a b, F32.fsub a b = F32.fadd a (F32.fneg b) ∧
    (F32.isNaN a = true ∨ F32.isNaN b = true → F32.fsub a b = 0x7FC00000) ∧
    (F32.isInf a = true → F32.isInf b = true → F32.sign a = F32.sign b → F32.fsub a b = 0x7FC00000) ∧
    (F32.isFinite a = true → F32.fsub a a = 0x00000000)

/-- 42_butterfly R69: fadd and fmul are commutative bit for bit. -/
def Obligations.SumsAndProductsCommute : Prop :=
  ∀ a b, F32.fadd a b = F32.fadd b a ∧ F32.fmul a b = F32.fmul b a

/-- 43_inverse R84: multiplying by 2^-m is exact for a finite x whose result stays at or above 2^-126, keeps zeros and
infinities, and for m = 0 changes only NaNs. -/
def Obligations.ScalingCorners : Prop :=
  ∀ (x : Word) (m : Nat), m ≤ 16 →
    (F32.isFinite x = true → m < F32.expField x → F32.value (F32.fmul x (powerPattern m)) * 2 ^ m = F32.value x) ∧
    (F32.isZero x = true ∨ F32.isInf x = true → F32.fmul x (powerPattern m) = x) ∧
    (F32.isNaN x = true → F32.fmul x (powerPattern m) = 0x7FC00000) ∧
    (F32.isNaN x = false → F32.fmul x (powerPattern 0) = x)

/-! ### Completion (40_command R58, 20_memory R42) -/

/-- R58, R42: whatever is latched, a completion clears BUSY, sets DONE, changes no other register or flag, and no
sample byte outside the words 0 .. LN-1; with BUSY = 0 the engine has no step. -/
def Obligations.CompletionFrame : Prop :=
  ∀ s t, engineCompletes s = .next t →
    (s.status.busy = false → t = s) ∧ (s.status.busy = true → CompletedFrom s t s.ln.toNat)

/-- R58: an internal engine step changes nothing a host can observe, nor the latches or the host. -/
def Obligations.InternalStepsAreInvisible : Prop :=
  ∀ s, ∃ t, engineInternal s = .next t ∧ SameToHost s t ∧ t = { s with seq := t.seq, fresh := t.fresh }

/-- R61: while BUSY = 1 no host access changes the command, its latches, its words or its lengths, nor ends it; a step
that leaves BUSY = 0 is the completion or the reset. -/
def Obligations.NoHostAccessChangesRunningCommand : Prop :=
  (∀ s a t, s.status.busy = true → access a s = .next t →
    t.samples = s.samples ∧ t.lop = s.lop ∧ t.ln = s.ln ∧ t.lm = s.lm ∧ t.ls = s.ls ∧ t.reLen = s.reLen ∧
    t.imLen = s.imLen ∧ t.status.busy = true ∧ t.status.err = s.status.err) ∧
  (∀ s t, s.status.busy = true → step s = .next t → t.status.busy = false →
    nextTurn s = .complete ∨ nextTurn s = .reset)

/-- 40_command R58, 70_reset R121: from every state that meets the invariant with BUSY = 1, the machine is idle again after
at most one step more than the turns listed. The spec gives no such bound (R119): that a busy engine completes when no turn
is listed, and so the bound, is the model's choice (log entry 6). -/
def Obligations.AcceptedCommandEnds : Prop :=
  ∀ s, BlockInv s → s.status.busy = true →
    ∃ k ≤ s.turns.length + 1, ∃ t, Host.Core.run Sys2Proof.core k s = .next t ∧ t.status.busy = false

/-! ### The port (20_memory) and the registers (10_state) -/

/-- R19, R36: a read of STATUS returns BUSERR, HAZ, ERR, DONE and BUSY at bits 9, 8, 7:4, 1 and 0, every other bit 0; a
read of CMD returns 0; neither changes anything. -/
def Obligations.CommandAndStatusReads : Prop :=
  ∀ s, access (wordRead 0x000) s = .next { s with rdata := 0 } ∧ access (wordRead 0x004) s = .next { s with
    rdata := BitVec.ofNat 32 (s.status.buserr.toNat * 512 + s.status.haz.toNat * 256 + s.status.err.toNat * 16 +
      s.status.done.toNat * 2 + s.status.busy.toNat) }

/-- R20: a write of w to STATUS clears DONE, HAZ, BUSERR where w has 1 at bits 1, 8, 9, and changes nothing else, busy or
not. -/
def Obligations.StatusWriteClearsOnlyW1c : Prop :=
  ∀ s w, access (wordWrite 0x004 w) s = .next { s with
    status := { busy := s.status.busy, done := s.status.done && !w.getLsbD 1, err := s.status.err,
                haz := s.status.haz && !w.getLsbD 8, buserr := s.status.buserr && !w.getLsbD 9 } }

/-- R21, R22, R36: RE_LEN and IM_LEN hold any word written while idle; a write while busy only sets HAZ; reads return the
register, busy or not. -/
def Obligations.LengthRegisters : Prop :=
  ∀ s v,
    (s.status.busy = false → access (wordWrite 0x008 v) s = .next { s with reLen := v } ∧
      access (wordWrite 0x00C v) s = .next { s with imLen := v }) ∧
    (s.status.busy = true →
      access (wordWrite 0x008 v) s = .next { s with status := { s.status with haz := true } } ∧
      access (wordWrite 0x00C v) s = .next { s with status := { s.status with haz := true } }) ∧
    access (wordRead 0x008) s = .next { s with rdata := s.reLen } ∧
    access (wordRead 0x00C) s = .next { s with rdata := s.imLen }

/-- R23, R36: IRQ_EN takes bit 0 of the word written, at any time and without setting HAZ, and reads 0 in bits 31:1; EN = 1
enables irq (R101); it is 0 at reset. -/
def Obligations.IrqEnableRegister : Prop :=
  (∀ s v, access (wordWrite 0x010 v) s = .next { s with irqEn := v.getLsbD 0 } ∧
    access (wordRead 0x010) s = .next { s with rdata := if s.irqEn then 1 else 0 }) ∧
  (∀ s, irq s = (s.status.done && s.irqEn)) ∧ (∀ k, (State.resetFor k).irqEn = false)

/-- R24: CAP reads LOG2_NMAX in every build, a write to it changes nothing, and no step changes it. -/
def Obligations.CapIsConstant : Prop :=
  (∀ s, access (wordRead 0x014) s = .next { s with rdata := BitVec.ofNat 32 s.log2NMax.val }) ∧
  (∀ s v, access (wordWrite 0x014 v) s = .next s) ∧
  (∀ k, (State.resetFor k).log2NMax = k) ∧
  (∀ s t, step s = .next t → t.log2NMax = s.log2NMax)

/-- R34, R99: an illegal access (a size other than 4, an offset not a multiple of 4, or an unmapped offset) sets BUSERR
and has no other effect, busy or not; a read returns 0. -/
def Obligations.IllegalAccessOnlySetsBuserr : Prop :=
  ∀ s a, ¬Legal s a →
    access a s = .next { s with
      status := { s.status with buserr := true }
      rdata := if a.dir = .read then 0 else s.rdata }

/-- R37, R38, R25: while idle a legal sample write stores the word exactly and changes no other byte of either channel and
no other state; the read returns the stored word and changes nothing. -/
def Obligations.SampleAccessesWhileIdle : Prop :=
  ∀ s c i v, s.status.busy = false → i < 2 ^ s.log2NMax.val →
    (∃ t, access (wordWrite (BitVec.ofNat 22 (sampleOffset c i)) v) s = .next t ∧
      t = { s with samples := t.samples } ∧ t.samples.get c i = v ∧
      ∀ c' a, c' ≠ c ∨ a < sampleOffset c i ∨ sampleOffset c i + 4 ≤ a →
        (t.samples.chan c').read a = (s.samples.chan c').read a) ∧
    access (wordRead (BitVec.ofNat 22 (sampleOffset c i))) s = .next { s with rdata := s.samples.get c i }

/-- R39: a legal sample access while busy reads and changes no sample word at any index, sets HAZ, and a read returns
0. -/
def Obligations.SampleAccessesRefusedWhileBusy : Prop :=
  ∀ s c i v, s.status.busy = true → i < 2 ^ s.log2NMax.val →
    access (wordWrite (BitVec.ofNat 22 (sampleOffset c i)) v) s =
      .next { s with status := { s.status with haz := true } } ∧
    access (wordRead (BitVec.ofNat 22 (sampleOffset c i))) s =
      .next { s with status := { s.status with haz := true }, rdata := 0 }

/-- R98: from HAZ = 0 an access sets HAZ exactly when the block is busy and the access is one of the three kinds a busy
block refuses; the refused access changes nothing else but the 0 a read returns. -/
def Obligations.HazSetByExactlyThreeActions : Prop :=
  ∀ s a t, s.status.haz = false → access a s = .next t →
    (t.status.haz = true ↔ s.status.busy = true ∧ RefusedWhileBusy s a) ∧
    (t.status.haz = true →
      t = { s with status := { s.status with haz := true }, rdata := if a.dir = .read then 0 else s.rdata })

/-- R98, R99: HAZ and BUSERR stay set until the host writes 1 to their STATUS bit, or until reset. -/
def Obligations.StickyFlagsStaySet : Prop :=
  ∀ s t, step s = .next t →
    (s.status.haz = true → t.status.haz = false → nextTurn s = .reset ∨
      ∃ w rest, HostIssues s (wordWrite 0x004 w) rest ∧ w.getLsbD 8 = true) ∧
    (s.status.buserr = true → t.status.buserr = false → nextTurn s = .reset ∨
      ∃ w rest, HostIssues s (wordWrite 0x004 w) rest ∧ w.getLsbD 9 = true)

/-- R100: one access sets at most one of HAZ and BUSERR, an illegal one never HAZ; and ERR changes only on a CMD write
while idle. -/
def Obligations.OneStickyFlagPerAccess : Prop :=
  ∀ s a t, access a s = .next t →
    ¬(s.status.haz = false ∧ t.status.haz = true ∧ s.status.buserr = false ∧ t.status.buserr = true) ∧
    (¬Legal s a → t.status.buserr = true ∧ t.status.haz = s.status.haz) ∧
    (t.status.err ≠ s.status.err → s.status.busy = false ∧ ∃ v, a = wordWrite 0x000 v)

/-- R101, R104: irq is the level DONE AND EN; HAZ and BUSERR do not raise it; the host's write of 1 to STATUS bit 1
deasserts it. -/
def Obligations.InterruptIsDoneAndEnabled : Prop :=
  ∀ s, (irq s = true ↔ s.status.done = true ∧ s.irqEn = true) ∧
    (∀ h b, irq { s with status := { s.status with haz := h, buserr := b } } = irq s) ∧
    (∀ w t, w.getLsbD 1 = true → access (wordWrite 0x004 w) s = .next t → irq t = false)

/-- 30_encoding R54: one read of a POLL line; the line ends when (data AND mask) = value and otherwise is read again. -/
def Obligations.PollRepeatsUntilMatch : Prop :=
  ∀ s off mask value rest, nextTurn s = .host → s.script = .poll off mask value :: rest →
    ∃ t, access (wordRead off) (afterIssue s rest) = .next t ∧
      step s = .next (if t.rdata &&& mask = value then t
        else { t with script := .poll off mask value :: rest })

/-! ### Reset (70_reset) -/

/-- R112, R114, R115: at power-on of every build the registers read 0, irq is 0, no sample byte has been written, the
block is idle, and FFT is then rejected with LEN_NOT_POW2. -/
def Obligations.PowerOnState : Prop :=
  ∀ k, statusWord (State.resetFor k).status = 0 ∧ (State.resetFor k).reLen = 0 ∧ (State.resetFor k).imLen = 0 ∧
    (State.resetFor k).irqEn = false ∧ irq (State.resetFor k) = false ∧
    (∀ c a, ((State.resetFor k).samples.chan c).read a = none) ∧
    exec .fft (State.resetFor k) = .next (rejected 3 (State.resetFor k))

/-- R111, R113: the reset input sets STATUS, both lengths and IRQ_EN to 0 in any state, keeps CAP and the host, keeps every
sample byte if no command was running, and otherwise every byte outside the words 0 .. LN-1. -/
def Obligations.ResetInput : Prop :=
  ∀ s, nextTurn s = .reset → ∃ t, step s = .next t ∧
    statusWord t.status = 0 ∧ t.reLen = 0 ∧ t.imLen = 0 ∧ t.irqEn = false ∧ irq t = false ∧
    t.log2NMax = s.log2NMax ∧ t.rdata = s.rdata ∧ t.script = s.script ∧ t.turns = s.turns.tail ∧
    (s.status.busy = false → t.samples = s.samples) ∧
    (∀ c a, a < chanBase c ∨ chanBase c + 4 * s.ln.toNat ≤ a →
      (t.samples.chan c).read a = (s.samples.chan c).read a)

/-! ### The invariant -/

/-- The invariant holds at power-on of every build. -/
def Obligations.InvariantHoldsAtReset : Prop := ∀ k, BlockInv (State.resetFor k)

/-- Every step of every agent keeps the invariant: the memories stay canonical and inside their windows, BUSY = 1 implies
DONE = 0 and ERR = 0, ERR stays at most 5, and a running command's latches stay those of an acceptance. -/
def Obligations.EveryStepKeepsInvariant : Prop := ∀ s t, BlockInv s → step s = .next t → BlockInv t

/-- In a state that meets the invariant the machine never stops: every step answers a next state. -/
def Obligations.InvariantStatesNeverStop : Prop := ∀ s, BlockInv s → ∃ t, step s = .next t
end

