-- ==== Sys2Proof/Laws/Memory.lean ====
section
/-!
SUPPORT. The laws of the sample memories: a read after a write, the canonical form and the listed offsets, for bytes, for
words and for samples.
-/

namespace Sys2Proof.Machine

/-! ### Bytes -/

@[simp] theorem Memory.read_write_same (m : Memory) (a : Nat) (b : Byte) : (m.write a b).read a = some b := by
  induction m with
  | nil => simp [Memory.write, Memory.read]
  | cons c m ih =>
    unfold Memory.write
    split_ifs with h1 h2
    · simp [Memory.read]
    · simp [Memory.read]
    · have h3 : c.1 ≠ a := fun h => h2 h.symm
      simp [Memory.read, h3, ih]

theorem Memory.read_write_other (m : Memory) {a a' : Nat} (b : Byte) (h : a' ≠ a) :
    (m.write a b).read a' = m.read a' := by
  induction m with
  | nil => simp [Memory.write, Memory.read, h.symm]
  | cons c m ih =>
    unfold Memory.write
    split_ifs with h1 h2
    · simp [Memory.read, h.symm]
    · have h3 : c.1 ≠ a' := fun h4 => h (h4.symm.trans h2.symm)
      simp [Memory.read, h.symm, h3]
    · simp only [Memory.read, ih]

/-- A write lists its own offset and no other new one. -/
theorem Memory.mem_write {m : Memory} {a : Nat} {b : Byte} {c : Host.Cell} (h : c ∈ m.write a b) :
    c = (a, b) ∨ c ∈ m := by
  induction m with
  | nil => simpa [Memory.write] using h
  | cons d m ih =>
    unfold Memory.write at h
    split_ifs at h with h1 h2
    · simpa using h
    · rcases List.mem_cons.mp h with h | h
      · exact .inl h
      · exact .inr (List.mem_cons_of_mem _ h)
    · rcases List.mem_cons.mp h with h | h
      · exact .inr (h ▸ List.mem_cons_self)
      · exact (ih h).imp_right (List.mem_cons_of_mem _)

theorem Memory.write_wf {m : Memory} (h : m.wf) (a : Nat) (b : Byte) : (m.write a b).wf := by
  induction m with
  | nil => simp [Memory.write, Memory.wf]
  | cons c m ih =>
    obtain ⟨hc, hm⟩ := List.pairwise_cons.mp h
    unfold Memory.write
    split_ifs with h1 h2
    · refine List.pairwise_cons.mpr ⟨fun d hd => ?_, h⟩
      rcases List.mem_cons.mp hd with rfl | hd
      · exact h1
      · exact h1.trans (hc d hd)
    · subst h2
      exact List.pairwise_cons.mpr ⟨hc, hm⟩
    · refine List.pairwise_cons.mpr ⟨fun d hd => ?_, ih hm⟩
      rcases Memory.mem_write hd with rfl | hd
      · change c.1 < a
        omega
      · exact hc d hd

theorem Memory.nil_wf : Memory.wf [] := List.Pairwise.nil

/-- Memories in canonical form that read alike are the same data. -/
theorem Memory.ext_of_wf {m n : Memory} (hm : m.wf) (hn : n.wf) (h : ∀ a, m.read a = n.read a) : m = n := by
  have above : ∀ {l : Memory} {a : Nat}, (∀ c ∈ l, a < c.1) → l.read a = none := by
    intro l a hl
    induction l with
    | nil => rfl
    | cons c l ih =>
      have h1 : c.1 ≠ a := by have := hl c (by simp); omega
      simp [Memory.read, h1, ih (fun d hd => hl d (List.mem_cons_of_mem _ hd))]
  induction m generalizing n with
  | nil =>
    cases n with
    | nil => rfl
    | cons d n => simpa [Memory.read] using h d.1
  | cons c m ih =>
    obtain ⟨hc, hm'⟩ := List.pairwise_cons.mp hm
    cases n with
    | nil => simpa [Memory.read] using h c.1
    | cons d n =>
      obtain ⟨hd, hn'⟩ := List.pairwise_cons.mp hn
      have key : c.1 = d.1 := by
        by_contra hne
        rcases Nat.lt_or_gt_of_ne hne with hlt | hlt
        · have h1 := h c.1
          have h2 : Memory.read (d :: n) c.1 = none := above (fun e he => by
            rcases List.mem_cons.mp he with rfl | he
            · exact hlt
            · exact hlt.trans (hd e he))
          rw [h2] at h1
          simp [Memory.read] at h1
        · have h1 := h d.1
          have h2 : Memory.read (c :: m) d.1 = none := above (fun e he => by
            rcases List.mem_cons.mp he with rfl | he
            · exact hlt
            · exact hlt.trans (hc e he))
          rw [h2] at h1
          simp [Memory.read] at h1
      have hval : c.2 = d.2 := by
        have h1 := h c.1
        simpa [Memory.read, key] using h1
      have hcd : c = d := Prod.ext key hval
      subst hcd
      congr 1
      refine ih hm' hn' fun a => ?_
      have h1 := h a
      by_cases ha : c.1 = a
      · subst ha
        rw [above hc, above hd]
      · simpa [Memory.read, ha] using h1

@[simp] theorem Memory.byte_write_same (m : Memory) (a : Nat) (b : Byte) : (m.write a b).byte a = b := by
  simp [Memory.byte]

theorem Memory.byte_write_other (m : Memory) {a a' : Nat} (b : Byte) (h : a' ≠ a) :
    (m.write a b).byte a' = m.byte a' := by
  simp [Memory.byte, Memory.read_write_other m b h]

/-! ### Words -/

/-- The four lanes of a word make it up (20_memory R40). -/
theorem lanes_append (w : Word) : lane w 3 ++ lane w 2 ++ lane w 1 ++ lane w 0 = w := by
  apply BitVec.eq_of_getLsbD_eq
  intro i hi
  simp only [lane, BitVec.getLsbD_append, BitVec.getLsbD_extractLsb']
  interval_cases i <;> simp

@[simp] theorem Memory.readWord_writeWord_same (m : Memory) (a : Nat) (w : Word) :
    (m.writeWord a w).readWord a = w := by
  simp [Memory.readWord, Memory.writeWord, Memory.byte_write_other, lanes_append]

/-- A word write leaves every byte outside its four as it was, unwritten ones included. -/
theorem Memory.read_writeWord_other (m : Memory) {a a' : Nat} (w : Word) (h : a' < a ∨ a + 4 ≤ a') :
    (m.writeWord a w).read a' = m.read a' := by
  have h0 : a' ≠ a := by omega
  have h1 : a' ≠ a + 1 := by omega
  have h2 : a' ≠ a + 2 := by omega
  have h3 : a' ≠ a + 3 := by omega
  simp [Memory.writeWord, Memory.read_write_other, h0, h1, h2, h3]

theorem Memory.readWord_writeWord_other (m : Memory) {a a' : Nat} (w : Word) (h : a' + 4 ≤ a ∨ a + 4 ≤ a') :
    (m.writeWord a w).readWord a' = m.readWord a' := by
  have hb : ∀ k < 4, (m.writeWord a w).byte (a' + k) = m.byte (a' + k) := fun k hk => by
    simp only [Memory.byte, Memory.read_writeWord_other m w (show a' + k < a ∨ a + 4 ≤ a' + k by omega)]
  have h0 : (m.writeWord a w).byte a' = m.byte a' := hb 0 (by omega)
  simp only [Memory.readWord, h0, hb 1 (by omega), hb 2 (by omega), hb 3 (by omega)]

theorem Memory.writeWord_wf {m : Memory} (h : m.wf) (a : Nat) (w : Word) : (m.writeWord a w).wf :=
  Memory.write_wf (Memory.write_wf (Memory.write_wf (Memory.write_wf h _ _) _ _) _ _) _ _

/-- A word write lists no offset outside its four but those listed before. -/
theorem Memory.mem_writeWord {m : Memory} {a : Nat} {w : Word} {c : Host.Cell} (h : c ∈ m.writeWord a w) :
    (a ≤ c.1 ∧ c.1 < a + 4) ∨ c ∈ m := by
  unfold Memory.writeWord at h
  rcases Memory.mem_write h with rfl | h
  · exact .inl ⟨by simp, by simp⟩
  rcases Memory.mem_write h with rfl | h
  · exact .inl ⟨by simp, by simp⟩
  rcases Memory.mem_write h with rfl | h
  · exact .inl ⟨by simp, by simp⟩
  rcases Memory.mem_write h with rfl | h
  · exact .inl ⟨by simp, by simp⟩
  exact .inr h

/-! ### Samples -/

@[simp] theorem Samples.get_set_same (x : Samples) (c : Chan) (i : Nat) (w : Word) : (x.set c i w).get c i = w := by
  cases c <;> simp [Samples.get, Samples.set, Samples.chan]

theorem Samples.get_set_other (x : Samples) {c c' : Chan} {i i' : Nat} (w : Word) (h : ¬(c' = c ∧ i' = i)) :
    (x.set c i w).get c' i' = x.get c' i' := by
  cases c <;> cases c' <;> simp only [Samples.get, Samples.set, Samples.chan] <;>
    exact Memory.readWord_writeWord_other _ _ (by simp at h; simp only [sampleOffset]; omega)

/-- The canonical form of both channels. -/
abbrev Samples.wf (x : Samples) : Prop := x.re.wf ∧ x.im.wf

theorem Samples.set_wf {x : Samples} (h : x.wf) (c : Chan) (i : Nat) (w : Word) : (x.set c i w).wf := by
  cases c
  · exact ⟨Memory.writeWord_wf h.1 _ _, h.2⟩
  · exact ⟨h.1, Memory.writeWord_wf h.2 _ _⟩

/-- A sample write leaves every byte but the word's four as it was. -/
theorem Samples.read_set_other (x : Samples) {c c' : Chan} {i a : Nat} (w : Word)
    (h : c' ≠ c ∨ a < sampleOffset c i ∨ sampleOffset c i + 4 ≤ a) :
    ((x.set c i w).chan c').read a = (x.chan c').read a := by
  cases c <;> cases c' <;> simp only [Samples.set, Samples.chan] <;>
    exact Memory.read_writeWord_other _ _ (by simpa using h)

theorem Samples.mem_set {x : Samples} {c c' : Chan} {i : Nat} {w : Word} {cell : Host.Cell}
    (h : cell ∈ (x.set c i w).chan c') :
    (c' = c ∧ sampleOffset c i ≤ cell.1 ∧ cell.1 < sampleOffset c i + 4) ∨ cell ∈ x.chan c' := by
  cases c <;> cases c'
  · exact (Memory.mem_writeWord h).imp_left fun h => ⟨rfl, h⟩
  · exact .inr h
  · exact .inr h
  · exact (Memory.mem_writeWord h).imp_left fun h => ⟨rfl, h⟩

/-! ### Complex samples -/

@[simp] theorem Samples.point_setPoint_same (x : Samples) (i : Nat) (p : Word × Word) :
    (x.setPoint i p).point i = p := by
  have h : ¬(Chan.re = Chan.im ∧ i = i) := by simp
  simp [Samples.point, Samples.setPoint, Samples.get_set_other _ _ h]

theorem Samples.point_setPoint_other (x : Samples) {i j : Nat} (p : Word × Word) (h : j ≠ i) :
    (x.setPoint i p).point j = x.point j := by
  simp [Samples.point, Samples.setPoint, Samples.get_set_other, h]

/-- Every read of a sample after a sample write, in one line. -/
theorem Samples.point_setPoint (x : Samples) (i j : Nat) (p : Word × Word) :
    (x.setPoint i p).point j = if j = i then p else x.point j := by
  split_ifs with h
  · subst h; simp
  · exact Samples.point_setPoint_other x p h

theorem Samples.setPoint_wf {x : Samples} (h : x.wf) (i : Nat) (p : Word × Word) : (x.setPoint i p).wf :=
  Samples.set_wf (Samples.set_wf h _ _ _) _ _ _

theorem Samples.read_setPoint_other (x : Samples) {c : Chan} {i a : Nat} (p : Word × Word)
    (h : a < sampleOffset c i ∨ sampleOffset c i + 4 ≤ a) :
    ((x.setPoint i p).chan c).read a = (x.chan c).read a := by
  cases c
  · rw [Samples.setPoint, Samples.read_set_other _ _ (.inl (by simp)), Samples.read_set_other _ _ (.inr h)]
  · rw [Samples.setPoint, Samples.read_set_other _ _ (.inr h), Samples.read_set_other _ _ (.inl (by simp))]

theorem Samples.mem_setPoint {x : Samples} {c : Chan} {i : Nat} {p : Word × Word} {cell : Host.Cell}
    (h : cell ∈ ((x.setPoint i p).chan c)) :
    (sampleOffset c i ≤ cell.1 ∧ cell.1 < sampleOffset c i + 4) ∨ cell ∈ x.chan c := by
  rcases Samples.mem_set h with h | h
  · exact .inl (h.1 ▸ h.2)
  · rcases Samples.mem_set h with h | h
    · exact .inl (h.1 ▸ h.2)
    · exact .inr h

/-- Two samples that agree at every index read alike. -/
theorem Samples.get_of_point {x y : Samples} {i : Nat} (h : x.point i = y.point i) (c : Chan) :
    x.get c i = y.get c i := by
  cases c
  · exact congrArg Prod.fst h
  · exact congrArg Prod.snd h

end Sys2Proof.Machine
end

