-- ==== Sys2Proof/Laws/Effects.lean ====
section
/-!
SUPPORT. Every effect of a command, and the scrambling of an interrupted one, keeps the canonical form of the sample
memories: each is a sequence of sample writes.
-/

namespace Sys2Proof.Machine

/-- A property that every turn of a fold keeps holds after the fold. -/
theorem foldl_keeps {α β : Type} (P : α → Prop) (f : α → β → α) (h : ∀ a b, P a → P (f a b)) (l : List β) {a : α}
    (ha : P a) : P (l.foldl f a) := by
  induction l generalizing a with
  | nil => exact ha
  | cons b l ih => exact ih (h a b ha)

theorem swapPoints_wf {x : Samples} (h : x.wf) (i j : Nat) : (swapPoints x i j).wf :=
  Samples.setPoint_wf (Samples.setPoint_wf h _ _) _ _

/-- R66: a swap exchanges two samples and leaves every other one. -/
theorem point_swapPoints (x : Samples) (i j k : Nat) :
    (swapPoints x i j).point k = if k = j then x.point i else if k = i then x.point j else x.point k := by
  simp only [swapPoints, Samples.point_setPoint]

theorem bitRevBody_wf {x : Samples} (h : x.wf) (N : Nat) : (bitRevBody N x).wf := by
  refine foldl_keeps (fun st : Nat × Samples => st.2.wf) _ (fun st i hst => ?_) _ h
  unfold bitRevStep
  dsimp only
  split_ifs
  · exact swapPoints_wf hst _ _
  · exact hst

theorem bfly_wf {x : Samples} (h : x.wf) (k ip : Nat) (w : Word × Word) : (bfly x k ip w).wf :=
  Samples.setPoint_wf (Samples.setPoint_wf h _ _) _ _

/-- R70: what a butterfly leaves at every index. -/
theorem point_bfly (x : Samples) (k ip i : Nat) (w : Word × Word) :
    (bfly x k ip w).point i =
      if i = k then cadd (x.point k) (cmul (x.point ip) w)
      else if i = ip then csub (x.point k) (cmul (x.point ip) w) else x.point i := by
  simp only [bfly, Samples.point_setPoint]

theorem subBandLoop_wf {x : Samples} (h : x.wf) (N le le2 : Nat) (w : Word × Word) (fuel k : Nat) :
    (subBandLoop N le le2 w fuel k x).wf := by
  induction fuel generalizing k x with
  | zero => exact h
  | succ fuel ih =>
    unfold subBandLoop
    split_ifs
    · exact ih (bfly_wf h _ _ _) _
    · exact h

theorem stageBody_wf {x : Samples} (h : x.wf) (N s : Nat) : (stageBody N s x).wf :=
  foldl_keeps (fun st : (Word × Word) × Samples => st.2.wf) _ (fun _ _ hst => subBandLoop_wf hst _ _ _ _ _ _) _ h

theorem stagesBody_wf {x : Samples} (h : x.wf) (N m : Nat) : (stagesBody N m x).wf :=
  foldl_keeps Samples.wf _ (fun _ _ hx => stageBody_wf hx _ _) _ h

theorem fftBody_wf {x : Samples} (h : x.wf) (N m : Nat) : (fftBody N m x).wf :=
  stagesBody_wf (bitRevBody_wf h _) _ _

theorem conjBody_wf {x : Samples} (h : x.wf) (N : Nat) : (conjBody N x).wf :=
  foldl_keeps Samples.wf _ (fun _ _ hx => Samples.set_wf hx _ _ _) _ h

theorem scaleBody_wf {x : Samples} (h : x.wf) (N m : Nat) : (scaleBody N m x).wf :=
  foldl_keeps Samples.wf _ (fun _ _ hx => Samples.setPoint_wf hx _ _) _ h

theorem ifftBody_wf {x : Samples} (h : x.wf) (N m : Nat) : (ifftBody N m x).wf :=
  conjBody_wf (scaleBody_wf (stagesBody_wf (bitRevBody_wf (conjBody_wf h _) _) _ _) _ _) _

/-- Every effect of R59 keeps the canonical form. -/
theorem effect_wf {s : State} (h : s.samples.wf) : (effect s).wf := by
  unfold effect
  split
  · exact fftBody_wf h _ _
  · exact ifftBody_wf h _ _
  · exact bitRevBody_wf h _
  · exact stagesBody_wf h _ _
  · exact stageBody_wf h _ _
  · exact conjBody_wf h _
  · exact scaleBody_wf h _ _
  · exact h

theorem scramblePoints_wf {x : Samples} (h : x.wf) (N n : Nat) : (scramblePoints N n x).wf :=
  foldl_keeps Samples.wf _ (fun _ _ hx => Samples.setPoint_wf hx _ _) _ h

/-- At power-on the memories are in canonical form, in every build. -/
theorem resetFor_samples_wf (k : Fin 17) : (State.resetFor k).samples.wf := ⟨Memory.nil_wf, Memory.nil_wf⟩

/-- And so they are in the power-on state of the build that `State.reset` names. -/
theorem reset_samples_wf : State.reset.samples.wf := resetFor_samples_wf _

end Sys2Proof.Machine
end

