-- ==== Sys2Proof/Laws/Float32.lean ====
section
/-!
SUPPORT. How far apart the finite binary32 values lie (00_scope R7): what "nearest" needs.
-/

namespace Sys2Proof.Machine

/-- The fraction field has 23 bits (R7). -/
theorem F32.fracField_lt (v : Word) : F32.fracField v < 2 ^ 23 := (v.extractLsb' 0 23).isLt

/-- The value of a finite pattern is its magnitude or the negative of it (R7). -/
theorem F32.value_cases (v : Word) :
    F32.value v = F32.magnitude v ∨ F32.value v = -(F32.magnitude v : Int) := by
  unfold F32.value
  split_ifs
  · exact .inr rfl
  · exact .inl rfl

/-- Against the spacing `2 ^ (e + 1)` of exponent field e + 2: every pattern is a multiple of it, or is smaller than the
least normal value of that field by at least half of it. -/
theorem F32.magnitude_multiple_or_below (w : Word) (e : Nat) :
    (∃ n : Nat, F32.magnitude w = n * (2 * 2 ^ e)) ∨ F32.magnitude w + 2 ^ e ≤ 2 ^ 24 * 2 ^ e := by
  have hf := F32.fracField_lt w
  unfold F32.magnitude
  split_ifs with h0
  · have h1 : 1 ≤ 2 ^ e := Nat.one_le_two_pow
    exact .inr (by omega)
  · rcases Nat.lt_or_ge (F32.expField w) (e + 2) with h1 | h1
    · have h2 := Nat.mul_le_mul (show 2 ^ 23 + F32.fracField w ≤ 2 ^ 24 - 1 by omega)
        (Nat.pow_le_pow_right (show 0 < 2 by decide) (show F32.expField w - 1 ≤ e by omega))
      exact .inr (by omega)
    · refine .inl ⟨(2 ^ 23 + F32.fracField w) * 2 ^ (F32.expField w - (e + 2)), ?_⟩
      rw [show F32.expField w - 1 = F32.expField w - (e + 2) + (e + 1) by omega, pow_add, pow_succ 2 e]
      ring

/-- A positive normal pattern with exponent field e + 2 is at least `2 ^ e` away from every other finite value, and at
least `2 ^ (e + 1)` when its fraction is not 0 (below a power of two the spacing halves). -/
theorem F32.value_gap (v w : Word) (e : Nat) (he : F32.expField v = e + 2) (hs : F32.sign v = false)
    (hne : F32.value w ≠ F32.value v) :
    2 ^ e ≤ |F32.value w - F32.value v| ∧
      (F32.fracField v ≠ 0 → 2 * 2 ^ e ≤ |F32.value w - F32.value v|) := by
  have hv : F32.value v = ((2 ^ 23 + F32.fracField v : Nat) : Int) * (2 * 2 ^ e) := by
    have hm : F32.magnitude v = (2 ^ 23 + F32.fracField v) * (2 * 2 ^ e) := by
      unfold F32.magnitude
      rw [if_neg (by omega), he, show e + 2 - 1 = e + 1 by omega, pow_succ 2 e, mul_comm (2 ^ e) 2]
    simp [F32.value, hs, hm]
  have hp : (0 : Int) < 2 ^ e := by positivity
  rw [hv] at hne ⊢
  rcases F32.magnitude_multiple_or_below w e with ⟨n, hn⟩ | hle
  · obtain ⟨z, hz⟩ : ∃ z : Int, F32.value w = z * (2 * 2 ^ e) := by
      rcases F32.value_cases w with h | h
      · exact ⟨n, by rw [h, hn]; push_cast; ring⟩
      · exact ⟨-n, by rw [h, hn]; push_cast; ring⟩
    rw [hz] at hne ⊢
    have h1 : 1 ≤ |z - ((2 ^ 23 + F32.fracField v : Nat) : Int)| :=
      Int.one_le_abs (fun h => hne (by rw [sub_eq_zero.mp h]))
    rw [← sub_mul, abs_mul, abs_of_pos (by positivity : (0 : Int) < 2 * 2 ^ e)]
    exact ⟨by nlinarith, fun _ => by nlinarith⟩
  · have hle' : (F32.magnitude w : Int) + 2 ^ e ≤ 2 ^ 24 * 2 ^ e := by exact_mod_cast hle
    have hw : F32.value w ≤ F32.magnitude w := by rcases F32.value_cases w with h | h <;> omega
    have hsum : ((2 ^ 23 + F32.fracField v : Nat) : Int) * (2 * 2 ^ e) =
        2 ^ 24 * 2 ^ e + 2 * (F32.fracField v * 2 ^ e) := by push_cast; ring
    have hf : (0 : Int) ≤ F32.fracField v * 2 ^ e := by positivity
    rw [hsum, abs_sub_comm]
    have habs := le_abs_self (2 ^ 24 * 2 ^ e + 2 * (F32.fracField v * 2 ^ e : Int) - F32.value w)
    refine ⟨by linarith, fun hne0 => ?_⟩
    have h1 : (1 : Int) ≤ F32.fracField v := by omega
    nlinarith

end Sys2Proof.Machine
end

