-- ==== Sys2Proof/Laws/State.lean ====
section
/-!
SUPPORT. What each named update of the state does to each field: every lemma holds by unfolding the update.
-/

namespace Sys2Proof.Machine

@[simp] theorem raiseHaz_status (s : State) : (raiseHaz s).status = { s.status with haz := true } := rfl
@[simp] theorem raiseHaz_reLen (s : State) : (raiseHaz s).reLen = s.reLen := rfl
@[simp] theorem raiseHaz_imLen (s : State) : (raiseHaz s).imLen = s.imLen := rfl
@[simp] theorem raiseHaz_irqEn (s : State) : (raiseHaz s).irqEn = s.irqEn := rfl
@[simp] theorem raiseHaz_samples (s : State) : (raiseHaz s).samples = s.samples := rfl
@[simp] theorem raiseHaz_lop (s : State) : (raiseHaz s).lop = s.lop := rfl
@[simp] theorem raiseHaz_ln (s : State) : (raiseHaz s).ln = s.ln := rfl
@[simp] theorem raiseHaz_lm (s : State) : (raiseHaz s).lm = s.lm := rfl
@[simp] theorem raiseHaz_ls (s : State) : (raiseHaz s).ls = s.ls := rfl
@[simp] theorem raiseHaz_log2NMax (s : State) : (raiseHaz s).log2NMax = s.log2NMax := rfl
@[simp] theorem raiseHaz_seq (s : State) : (raiseHaz s).seq = s.seq := rfl
@[simp] theorem raiseHaz_rdata (s : State) : (raiseHaz s).rdata = s.rdata := rfl
@[simp] theorem raiseHaz_script (s : State) : (raiseHaz s).script = s.script := rfl
@[simp] theorem raiseHaz_turns (s : State) : (raiseHaz s).turns = s.turns := rfl
@[simp] theorem raiseHaz_fresh (s : State) : (raiseHaz s).fresh = s.fresh := rfl

@[simp] theorem raiseBuserr_status (s : State) : (raiseBuserr s).status = { s.status with buserr := true } := rfl
@[simp] theorem raiseBuserr_reLen (s : State) : (raiseBuserr s).reLen = s.reLen := rfl
@[simp] theorem raiseBuserr_imLen (s : State) : (raiseBuserr s).imLen = s.imLen := rfl
@[simp] theorem raiseBuserr_irqEn (s : State) : (raiseBuserr s).irqEn = s.irqEn := rfl
@[simp] theorem raiseBuserr_samples (s : State) : (raiseBuserr s).samples = s.samples := rfl
@[simp] theorem raiseBuserr_lop (s : State) : (raiseBuserr s).lop = s.lop := rfl
@[simp] theorem raiseBuserr_ln (s : State) : (raiseBuserr s).ln = s.ln := rfl
@[simp] theorem raiseBuserr_lm (s : State) : (raiseBuserr s).lm = s.lm := rfl
@[simp] theorem raiseBuserr_ls (s : State) : (raiseBuserr s).ls = s.ls := rfl
@[simp] theorem raiseBuserr_log2NMax (s : State) : (raiseBuserr s).log2NMax = s.log2NMax := rfl
@[simp] theorem raiseBuserr_seq (s : State) : (raiseBuserr s).seq = s.seq := rfl
@[simp] theorem raiseBuserr_rdata (s : State) : (raiseBuserr s).rdata = s.rdata := rfl
@[simp] theorem raiseBuserr_script (s : State) : (raiseBuserr s).script = s.script := rfl
@[simp] theorem raiseBuserr_turns (s : State) : (raiseBuserr s).turns = s.turns := rfl
@[simp] theorem raiseBuserr_fresh (s : State) : (raiseBuserr s).fresh = s.fresh := rfl

@[simp] theorem raiseDone_status (s : State) : (raiseDone s).status = { s.status with done := true } := rfl
@[simp] theorem raiseDone_reLen (s : State) : (raiseDone s).reLen = s.reLen := rfl
@[simp] theorem raiseDone_imLen (s : State) : (raiseDone s).imLen = s.imLen := rfl
@[simp] theorem raiseDone_irqEn (s : State) : (raiseDone s).irqEn = s.irqEn := rfl
@[simp] theorem raiseDone_samples (s : State) : (raiseDone s).samples = s.samples := rfl
@[simp] theorem raiseDone_lop (s : State) : (raiseDone s).lop = s.lop := rfl
@[simp] theorem raiseDone_ln (s : State) : (raiseDone s).ln = s.ln := rfl
@[simp] theorem raiseDone_lm (s : State) : (raiseDone s).lm = s.lm := rfl
@[simp] theorem raiseDone_ls (s : State) : (raiseDone s).ls = s.ls := rfl
@[simp] theorem raiseDone_log2NMax (s : State) : (raiseDone s).log2NMax = s.log2NMax := rfl
@[simp] theorem raiseDone_seq (s : State) : (raiseDone s).seq = s.seq := rfl
@[simp] theorem raiseDone_rdata (s : State) : (raiseDone s).rdata = s.rdata := rfl
@[simp] theorem raiseDone_script (s : State) : (raiseDone s).script = s.script := rfl
@[simp] theorem raiseDone_turns (s : State) : (raiseDone s).turns = s.turns := rfl
@[simp] theorem raiseDone_fresh (s : State) : (raiseDone s).fresh = s.fresh := rfl

@[simp] theorem recordResult_status (e : ErrCode) (s : State) :
    (recordResult e s).status = { s.status with done := false, err := errNumber e } := rfl
@[simp] theorem recordResult_reLen (e : ErrCode) (s : State) : (recordResult e s).reLen = s.reLen := rfl
@[simp] theorem recordResult_imLen (e : ErrCode) (s : State) : (recordResult e s).imLen = s.imLen := rfl
@[simp] theorem recordResult_irqEn (e : ErrCode) (s : State) : (recordResult e s).irqEn = s.irqEn := rfl
@[simp] theorem recordResult_samples (e : ErrCode) (s : State) : (recordResult e s).samples = s.samples := rfl
@[simp] theorem recordResult_lop (e : ErrCode) (s : State) : (recordResult e s).lop = s.lop := rfl
@[simp] theorem recordResult_ln (e : ErrCode) (s : State) : (recordResult e s).ln = s.ln := rfl
@[simp] theorem recordResult_lm (e : ErrCode) (s : State) : (recordResult e s).lm = s.lm := rfl
@[simp] theorem recordResult_ls (e : ErrCode) (s : State) : (recordResult e s).ls = s.ls := rfl
@[simp] theorem recordResult_log2NMax (e : ErrCode) (s : State) : (recordResult e s).log2NMax = s.log2NMax := rfl
@[simp] theorem recordResult_seq (e : ErrCode) (s : State) : (recordResult e s).seq = s.seq := rfl
@[simp] theorem recordResult_rdata (e : ErrCode) (s : State) : (recordResult e s).rdata = s.rdata := rfl
@[simp] theorem recordResult_script (e : ErrCode) (s : State) : (recordResult e s).script = s.script := rfl
@[simp] theorem recordResult_turns (e : ErrCode) (s : State) : (recordResult e s).turns = s.turns := rfl
@[simp] theorem recordResult_fresh (e : ErrCode) (s : State) : (recordResult e s).fresh = s.fresh := rfl

@[simp] theorem reject_status (e : ErrCode) (s : State) :
    (reject e s).status = { s.status with done := true, err := errNumber e } := rfl
@[simp] theorem reject_reLen (e : ErrCode) (s : State) : (reject e s).reLen = s.reLen := rfl
@[simp] theorem reject_imLen (e : ErrCode) (s : State) : (reject e s).imLen = s.imLen := rfl
@[simp] theorem reject_irqEn (e : ErrCode) (s : State) : (reject e s).irqEn = s.irqEn := rfl
@[simp] theorem reject_samples (e : ErrCode) (s : State) : (reject e s).samples = s.samples := rfl
@[simp] theorem reject_lop (e : ErrCode) (s : State) : (reject e s).lop = s.lop := rfl
@[simp] theorem reject_ln (e : ErrCode) (s : State) : (reject e s).ln = s.ln := rfl
@[simp] theorem reject_lm (e : ErrCode) (s : State) : (reject e s).lm = s.lm := rfl
@[simp] theorem reject_ls (e : ErrCode) (s : State) : (reject e s).ls = s.ls := rfl
@[simp] theorem reject_log2NMax (e : ErrCode) (s : State) : (reject e s).log2NMax = s.log2NMax := rfl
@[simp] theorem reject_seq (e : ErrCode) (s : State) : (reject e s).seq = s.seq := rfl
@[simp] theorem reject_rdata (e : ErrCode) (s : State) : (reject e s).rdata = s.rdata := rfl
@[simp] theorem reject_script (e : ErrCode) (s : State) : (reject e s).script = s.script := rfl
@[simp] theorem reject_turns (e : ErrCode) (s : State) : (reject e s).turns = s.turns := rfl
@[simp] theorem reject_fresh (e : ErrCode) (s : State) : (reject e s).fresh = s.fresh := rfl

@[simp] theorem accept_status (op : BitVec 4) (st : BitVec 5) (s : State) :
    (accept op st s).status = { s.status with busy := true, done := false, err := 0 } := rfl
@[simp] theorem accept_reLen (op : BitVec 4) (st : BitVec 5) (s : State) : (accept op st s).reLen = s.reLen := rfl
@[simp] theorem accept_imLen (op : BitVec 4) (st : BitVec 5) (s : State) : (accept op st s).imLen = s.imLen := rfl
@[simp] theorem accept_irqEn (op : BitVec 4) (st : BitVec 5) (s : State) : (accept op st s).irqEn = s.irqEn := rfl
@[simp] theorem accept_samples (op : BitVec 4) (st : BitVec 5) (s : State) :
    (accept op st s).samples = s.samples := rfl
@[simp] theorem accept_lop (op : BitVec 4) (st : BitVec 5) (s : State) : (accept op st s).lop = op := rfl
@[simp] theorem accept_ln (op : BitVec 4) (st : BitVec 5) (s : State) : (accept op st s).ln = s.reLen := rfl
@[simp] theorem accept_lm (op : BitVec 4) (st : BitVec 5) (s : State) :
    (accept op st s).lm = BitVec.ofNat 5 (log2 s.reLen) := rfl
@[simp] theorem accept_ls (op : BitVec 4) (st : BitVec 5) (s : State) : (accept op st s).ls = st := rfl
@[simp] theorem accept_log2NMax (op : BitVec 4) (st : BitVec 5) (s : State) :
    (accept op st s).log2NMax = s.log2NMax := rfl
@[simp] theorem accept_seq (op : BitVec 4) (st : BitVec 5) (s : State) : (accept op st s).seq = s.seq := rfl
@[simp] theorem accept_rdata (op : BitVec 4) (st : BitVec 5) (s : State) : (accept op st s).rdata = s.rdata := rfl
@[simp] theorem accept_script (op : BitVec 4) (st : BitVec 5) (s : State) : (accept op st s).script = s.script := rfl
@[simp] theorem accept_turns (op : BitVec 4) (st : BitVec 5) (s : State) : (accept op st s).turns = s.turns := rfl
@[simp] theorem accept_fresh (op : BitVec 4) (st : BitVec 5) (s : State) : (accept op st s).fresh = s.fresh := rfl

@[simp] theorem scrambleSequencer_status (s : State) : (scrambleSequencer s).status = s.status := rfl
@[simp] theorem scrambleSequencer_reLen (s : State) : (scrambleSequencer s).reLen = s.reLen := rfl
@[simp] theorem scrambleSequencer_imLen (s : State) : (scrambleSequencer s).imLen = s.imLen := rfl
@[simp] theorem scrambleSequencer_irqEn (s : State) : (scrambleSequencer s).irqEn = s.irqEn := rfl
@[simp] theorem scrambleSequencer_samples (s : State) : (scrambleSequencer s).samples = s.samples := rfl
@[simp] theorem scrambleSequencer_lop (s : State) : (scrambleSequencer s).lop = s.lop := rfl
@[simp] theorem scrambleSequencer_ln (s : State) : (scrambleSequencer s).ln = s.ln := rfl
@[simp] theorem scrambleSequencer_lm (s : State) : (scrambleSequencer s).lm = s.lm := rfl
@[simp] theorem scrambleSequencer_ls (s : State) : (scrambleSequencer s).ls = s.ls := rfl
@[simp] theorem scrambleSequencer_log2NMax (s : State) : (scrambleSequencer s).log2NMax = s.log2NMax := rfl
@[simp] theorem scrambleSequencer_seq (s : State) : (scrambleSequencer s).seq = drawSequencer s.fresh := rfl
@[simp] theorem scrambleSequencer_rdata (s : State) : (scrambleSequencer s).rdata = s.rdata := rfl
@[simp] theorem scrambleSequencer_script (s : State) : (scrambleSequencer s).script = s.script := rfl
@[simp] theorem scrambleSequencer_turns (s : State) : (scrambleSequencer s).turns = s.turns := rfl
@[simp] theorem scrambleSequencer_fresh (s : State) : (scrambleSequencer s).fresh = s.fresh + 16 := rfl

@[simp] theorem scrambleLatches_status (s : State) : (scrambleLatches s).status = s.status := rfl
@[simp] theorem scrambleLatches_reLen (s : State) : (scrambleLatches s).reLen = s.reLen := rfl
@[simp] theorem scrambleLatches_imLen (s : State) : (scrambleLatches s).imLen = s.imLen := rfl
@[simp] theorem scrambleLatches_irqEn (s : State) : (scrambleLatches s).irqEn = s.irqEn := rfl
@[simp] theorem scrambleLatches_samples (s : State) : (scrambleLatches s).samples = s.samples := rfl
@[simp] theorem scrambleLatches_lop (s : State) :
    (scrambleLatches s).lop = (Config.freeWord s.fresh).setWidth 4 := rfl
@[simp] theorem scrambleLatches_ln (s : State) : (scrambleLatches s).ln = Config.freeWord (s.fresh + 1) := rfl
@[simp] theorem scrambleLatches_lm (s : State) :
    (scrambleLatches s).lm = (Config.freeWord (s.fresh + 2)).setWidth 5 := rfl
@[simp] theorem scrambleLatches_ls (s : State) :
    (scrambleLatches s).ls = (Config.freeWord (s.fresh + 3)).setWidth 5 := rfl
@[simp] theorem scrambleLatches_log2NMax (s : State) : (scrambleLatches s).log2NMax = s.log2NMax := rfl
@[simp] theorem scrambleLatches_seq (s : State) : (scrambleLatches s).seq = drawSequencer (s.fresh + 4) := rfl
@[simp] theorem scrambleLatches_rdata (s : State) : (scrambleLatches s).rdata = s.rdata := rfl
@[simp] theorem scrambleLatches_script (s : State) : (scrambleLatches s).script = s.script := rfl
@[simp] theorem scrambleLatches_turns (s : State) : (scrambleLatches s).turns = s.turns := rfl
@[simp] theorem scrambleLatches_fresh (s : State) : (scrambleLatches s).fresh = s.fresh + 20 := rfl

@[simp] theorem dropTurn_status (s : State) : (dropTurn s).status = s.status := rfl
@[simp] theorem dropTurn_reLen (s : State) : (dropTurn s).reLen = s.reLen := rfl
@[simp] theorem dropTurn_imLen (s : State) : (dropTurn s).imLen = s.imLen := rfl
@[simp] theorem dropTurn_irqEn (s : State) : (dropTurn s).irqEn = s.irqEn := rfl
@[simp] theorem dropTurn_samples (s : State) : (dropTurn s).samples = s.samples := rfl
@[simp] theorem dropTurn_lop (s : State) : (dropTurn s).lop = s.lop := rfl
@[simp] theorem dropTurn_ln (s : State) : (dropTurn s).ln = s.ln := rfl
@[simp] theorem dropTurn_lm (s : State) : (dropTurn s).lm = s.lm := rfl
@[simp] theorem dropTurn_ls (s : State) : (dropTurn s).ls = s.ls := rfl
@[simp] theorem dropTurn_log2NMax (s : State) : (dropTurn s).log2NMax = s.log2NMax := rfl
@[simp] theorem dropTurn_seq (s : State) : (dropTurn s).seq = s.seq := rfl
@[simp] theorem dropTurn_rdata (s : State) : (dropTurn s).rdata = s.rdata := rfl
@[simp] theorem dropTurn_script (s : State) : (dropTurn s).script = s.script := rfl
@[simp] theorem dropTurn_turns (s : State) : (dropTurn s).turns = s.turns.tail := rfl
@[simp] theorem dropTurn_fresh (s : State) : (dropTurn s).fresh = s.fresh := rfl

@[simp] theorem stageCmdWrite_status (v : Word) (s : State) : (stageCmdWrite v s).status = s.status := rfl
@[simp] theorem stageCmdWrite_reLen (v : Word) (s : State) : (stageCmdWrite v s).reLen = s.reLen := rfl
@[simp] theorem stageCmdWrite_imLen (v : Word) (s : State) : (stageCmdWrite v s).imLen = s.imLen := rfl
@[simp] theorem stageCmdWrite_irqEn (v : Word) (s : State) : (stageCmdWrite v s).irqEn = s.irqEn := rfl
@[simp] theorem stageCmdWrite_samples (v : Word) (s : State) : (stageCmdWrite v s).samples = s.samples := rfl
@[simp] theorem stageCmdWrite_lop (v : Word) (s : State) : (stageCmdWrite v s).lop = s.lop := rfl
@[simp] theorem stageCmdWrite_ln (v : Word) (s : State) : (stageCmdWrite v s).ln = s.ln := rfl
@[simp] theorem stageCmdWrite_lm (v : Word) (s : State) : (stageCmdWrite v s).lm = s.lm := rfl
@[simp] theorem stageCmdWrite_ls (v : Word) (s : State) : (stageCmdWrite v s).ls = s.ls := rfl
@[simp] theorem stageCmdWrite_log2NMax (v : Word) (s : State) : (stageCmdWrite v s).log2NMax = s.log2NMax := rfl
@[simp] theorem stageCmdWrite_seq (v : Word) (s : State) : (stageCmdWrite v s).seq = s.seq := rfl
@[simp] theorem stageCmdWrite_rdata (v : Word) (s : State) : (stageCmdWrite v s).rdata = s.rdata := rfl
@[simp] theorem stageCmdWrite_script (v : Word) (s : State) :
    (stageCmdWrite v s).script = .access { dir := .write, off := 0x000, size := .word, data := v } :: s.script := rfl
@[simp] theorem stageCmdWrite_turns (v : Word) (s : State) : (stageCmdWrite v s).turns = .host :: s.turns := rfl
@[simp] theorem stageCmdWrite_fresh (v : Word) (s : State) : (stageCmdWrite v s).fresh = s.fresh := rfl

@[simp] theorem abandonCommand_status (s : State) : (abandonCommand s).status = s.status := by
  unfold abandonCommand; split <;> rfl
@[simp] theorem abandonCommand_reLen (s : State) : (abandonCommand s).reLen = s.reLen := by
  unfold abandonCommand; split <;> rfl
@[simp] theorem abandonCommand_imLen (s : State) : (abandonCommand s).imLen = s.imLen := by
  unfold abandonCommand; split <;> rfl
@[simp] theorem abandonCommand_irqEn (s : State) : (abandonCommand s).irqEn = s.irqEn := by
  unfold abandonCommand; split <;> rfl
@[simp] theorem abandonCommand_lop (s : State) : (abandonCommand s).lop = s.lop := by
  unfold abandonCommand; split <;> rfl
@[simp] theorem abandonCommand_ln (s : State) : (abandonCommand s).ln = s.ln := by
  unfold abandonCommand; split <;> rfl
@[simp] theorem abandonCommand_lm (s : State) : (abandonCommand s).lm = s.lm := by
  unfold abandonCommand; split <;> rfl
@[simp] theorem abandonCommand_ls (s : State) : (abandonCommand s).ls = s.ls := by
  unfold abandonCommand; split <;> rfl
@[simp] theorem abandonCommand_log2NMax (s : State) : (abandonCommand s).log2NMax = s.log2NMax := by
  unfold abandonCommand; split <;> rfl
@[simp] theorem abandonCommand_seq (s : State) : (abandonCommand s).seq = s.seq := by
  unfold abandonCommand; split <;> rfl
@[simp] theorem abandonCommand_rdata (s : State) : (abandonCommand s).rdata = s.rdata := by
  unfold abandonCommand; split <;> rfl
@[simp] theorem abandonCommand_script (s : State) : (abandonCommand s).script = s.script := by
  unfold abandonCommand; split <;> rfl
@[simp] theorem abandonCommand_turns (s : State) : (abandonCommand s).turns = s.turns := by
  unfold abandonCommand; split <;> rfl

@[simp] theorem resetBody_status (s : State) : (resetBody s).status = Status.zero := rfl
@[simp] theorem resetBody_reLen (s : State) : (resetBody s).reLen = 0 := rfl
@[simp] theorem resetBody_imLen (s : State) : (resetBody s).imLen = 0 := rfl
@[simp] theorem resetBody_irqEn (s : State) : (resetBody s).irqEn = false := rfl
@[simp] theorem resetBody_samples (s : State) : (resetBody s).samples = (abandonCommand s).samples := rfl
@[simp] theorem resetBody_log2NMax (s : State) : (resetBody s).log2NMax = s.log2NMax := by
  simp [resetBody]
@[simp] theorem resetBody_rdata (s : State) : (resetBody s).rdata = s.rdata := by
  simp [resetBody]
@[simp] theorem resetBody_script (s : State) : (resetBody s).script = s.script := by
  simp [resetBody]
@[simp] theorem resetBody_turns (s : State) : (resetBody s).turns = s.turns := by
  simp [resetBody]

end Sys2Proof.Machine
end

