-- ==== Sys2Proof/Laws/Ops.lean ====
section
/-!
SUPPORT. For each shared operation, one lemma that says everything it can do.
-/

namespace Sys2Proof.Machine

/-- Everything a submission can do (40_command R56, R57). -/
theorem submit_cases (e : ErrCode) (op : BitVec 4) (st : BitVec 5) (s : State) :
    (s.status.busy = true ∧ submit e op st s = raiseHaz s) ∨
      (s.status.busy = false ∧ e = .none ∧ submit e op st s = accept op st s) ∨
      (s.status.busy = false ∧ e ≠ .none ∧ submit e op st s = reject e s) := by
  unfold submit
  cases hb : s.status.busy
  · cases e <;> simp
  · simp

/-- A submission while idle whose validation passes is an acceptance. -/
theorem submit_idle_none {s : State} (hb : s.status.busy = false) (op : BitVec 4) (st : BitVec 5) :
    submit .none op st s = accept op st s := by
  simp [submit, hb]

/-- A submission while idle whose validation fails is a rejection. -/
theorem submit_idle_error {s : State} {e : ErrCode} (hb : s.status.busy = false) (he : e ≠ .none) (op : BitVec 4)
    (st : BitVec 5) : submit e op st s = reject e s := by
  cases e <;> simp_all [submit]

/-- A submission while busy only sets HAZ (R57). -/
theorem submit_busy {s : State} (hb : s.status.busy = true) (e : ErrCode) (op : BitVec 4) (st : BitVec 5) :
    submit e op st s = raiseHaz s := by
  simp [submit, hb]

/-- The opcode a command latches, and its stage field (10_state R28). NOP is never latched. -/
def latchOf : Instr → BitVec 4 × BitVec 5
  | .nop => (0x0, 0)
  | .fft => (0x1, 0)
  | .ifft => (0x2, 0)
  | .bitrev => (0x3, 0)
  | .stages => (0x4, 0)
  | .stage k => (0x5, BitVec.ofNat 5 k)
  | .conj => (0x6, 0)
  | .scale => (0x7, 0)

/-- The meaning of every command but NOP is a submission with its own opcode, stage field and checks. -/
theorem exec_eq_submit {i : Instr} (h : i ≠ .nop) (s : State) :
    exec i s = .next (submit (commandError i s) (latchOf i).1 (latchOf i).2 s) := by
  cases i <;> first | exact absurd rfl h | rfl

/-- Every command's meaning answers a next state: no command faults and none is refused. -/
theorem exec_next (i : Instr) (s : State) : ∃ t, exec i s = .next t := by
  cases i <;> exact ⟨_, rfl⟩

/-- Everything the engine's completion can do (40_command R58). -/
theorem engineCompletes_cases (s : State) :
    (s.status.busy = false ∧ engineCompletes s = .next s) ∨
      (s.status.busy = true ∧ latchesConsistent s = true ∧
        engineCompletes s = .next (scrambleLatches
          { s with samples := effect s, status := { s.status with busy := false, done := true } })) ∨
      (s.status.busy = true ∧ latchesConsistent s = false ∧ engineCompletes s = .fault .inconsistentLatches) := by
  unfold engineCompletes completion
  cases hb : s.status.busy
  · simp
  · cases hl : latchesConsistent s <;> simp

/-- What consistent latches say. -/
theorem latchesConsistent_iff (s : State) :
    latchesConsistent s = true ↔
      1 ≤ s.lop.toNat ∧ s.lop.toNat ≤ 7 ∧ s.ln.toNat = 2 ^ s.lm.toNat ∧ s.lm.toNat ≤ s.log2NMax.val ∧
        (s.lop = 0x5 → 1 ≤ s.ls.toNat ∧ s.ls.toNat ≤ s.lm.toNat) := by
  unfold latchesConsistent
  exact decide_eq_true_iff

/-- Where an access can reach (20_memory R33, R34): nothing, a register at its offset, or a sample in its window. -/
theorem locate_cases (s : State) (off : BitVec 22) (size : Size) :
    locate s off size = none ∨
      (size = .word ∧ ∃ r, locate s off size = some (.reg r) ∧ off.toNat = regOffset r) ∨
      (size = .word ∧ ∃ c i, locate s off size = some (.sample c i) ∧ i < nMax s ∧ off.toNat = sampleOffset c i) := by
  unfold locate
  split_ifs with h1 h2
  · exact .inl rfl
  · exact .inl rfl
  · have hs : size = .word := by simpa using h1
    have h4 : off.toNat % 4 = 0 := by simpa using h2
    have hreg : ∀ r, regAt off.toNat = some r → off.toNat = regOffset r := by
      intro r hr
      unfold regAt at hr
      split at hr <;> simp_all [regOffset] <;> subst hr <;> rfl
    cases hr : regAt off.toNat with
    | some r => exact .inr (.inl ⟨hs, r, rfl, hreg r hr⟩)
    | none =>
      simp only [sampleAt]
      split_ifs with h5 h6
      · refine .inr (.inr ⟨hs, .re, _, rfl, ?_, ?_⟩) <;> simp only [sampleOffset, chanBase] at * <;> omega
      · refine .inr (.inr ⟨hs, .im, _, rfl, ?_, ?_⟩) <;> simp only [sampleOffset, chanBase] at * <;> omega
      · exact .inl rfl

/-- Everything a host read can do (20_memory R34, R36, R37, R39). -/
theorem memRead_cases (off : BitVec 22) (size : Size) (s : State) :
    (locate s off size = none ∧ memRead off size s = (0, raiseBuserr s)) ∨
      (∃ r, locate s off size = some (.reg r) ∧ memRead off size s = (regRead r s, s)) ∨
      (∃ c i, locate s off size = some (.sample c i) ∧ s.status.busy = true ∧ memRead off size s = (0, raiseHaz s)) ∨
      (∃ c i, locate s off size = some (.sample c i) ∧ s.status.busy = false ∧
        memRead off size s = (s.samples.get c i, s)) := by
  unfold memRead
  rcases locate_cases s off size with h | ⟨-, r, h, -⟩ | ⟨-, c, i, h, -⟩
  · exact .inl ⟨h, by simp [h]⟩
  · exact .inr (.inl ⟨r, h, by simp [h]⟩)
  · cases hb : s.status.busy
    · exact .inr (.inr (.inr ⟨c, i, h, rfl, by simp [h]⟩))
    · exact .inr (.inr (.inl ⟨c, i, h, rfl, by simp [h]⟩))

/-- Everything a host write can do (20_memory R34, R36, R38, R39). -/
theorem memWrite_cases (off : BitVec 22) (size : Size) (v : Word) (s : State) :
    (locate s off size = none ∧ memWrite off size v s = .next (raiseBuserr s)) ∨
      (∃ r, locate s off size = some (.reg r) ∧ memWrite off size v s = regWrite r v s) ∨
      (∃ c i, locate s off size = some (.sample c i) ∧ s.status.busy = true ∧
        memWrite off size v s = .next (raiseHaz s)) ∨
      (∃ c i, locate s off size = some (.sample c i) ∧ s.status.busy = false ∧
        memWrite off size v s = .next { s with samples := s.samples.set c i v }) := by
  unfold memWrite
  rcases locate_cases s off size with h | ⟨-, r, h, -⟩ | ⟨-, c, i, h, -⟩
  · exact .inl ⟨h, by simp [h]⟩
  · exact .inr (.inl ⟨r, h, by simp [h]⟩)
  · cases hb : s.status.busy
    · exact .inr (.inr (.inr ⟨c, i, h, rfl, by simp [h]⟩))
    · exact .inr (.inr (.inl ⟨c, i, h, rfl, by simp [h]⟩))

/-- Everything a write to CMD can do (40_command R56, R57). -/
theorem writeCmd_cases (v : Word) (s : State) :
    (s.status.busy = true ∧ writeCmd v s = .next (raiseHaz s)) ∨
      (s.status.busy = false ∧ (∃ e, decode v = .error e) ∧ writeCmd v s = .next (reject .illegalCmd s)) ∨
      (s.status.busy = false ∧ ∃ i, decode v = .ok i ∧ writeCmd v s = exec i s) := by
  unfold writeCmd
  cases hb : s.status.busy
  · cases hd : decode v with
    | error e => exact .inr (.inl ⟨rfl, ⟨e, rfl⟩, by simp⟩)
    | ok i => exact .inr (.inr ⟨rfl, i, rfl, by simp⟩)
  · exact .inl ⟨rfl, by simp⟩

/-- Who moves in a step, and what then happens (10_state R17). -/
theorem step_cases (s : State) :
    (nextTurn s = .host ∧ step s = hostStep (dropTurn s)) ∨
      (nextTurn s = .internal ∧ step s = engineInternal (dropTurn s)) ∨
      (nextTurn s = .complete ∧ step s = engineCompletes (dropTurn s)) ∨
      (nextTurn s = .reset ∧ step s = .next (resetBody (dropTurn s))) := by
  unfold step
  cases h : nextTurn s <;> simp

/-- Everything the host's turn can do: nothing, an access, or one read of a POLL loop. -/
theorem hostStep_cases (s : State) :
    (s.script = [] ∧ hostStep s = .next s) ∨
      (∃ a rest, s.script = .access a :: rest ∧ hostStep s = access a { s with script := rest }) ∨
      (∃ off mask value rest t, s.script = .poll off mask value :: rest ∧
        t = hostRead off .word { s with script := rest } ∧
        hostStep s = .next (if t.rdata &&& mask = value then t
          else { t with script := .poll off mask value :: t.script })) := by
  unfold hostStep
  cases h : s.script with
  | nil => exact .inl ⟨rfl, rfl⟩
  | cons l rest =>
    cases l with
    | access a => exact .inr (.inl ⟨a, rest, rfl, rfl⟩)
    | poll off mask value => exact .inr (.inr ⟨off, mask, value, rest, _, rfl, rfl, rfl⟩)

end Sys2Proof.Machine
end

