-- ==== Sys2Proof/Laws/PerInstr.lean ====
section
/-!
SUPPORT. Statements made per command: the encoded word of a well-formed command selects its own row of the opcode map.
-/

/-- The word of a well-formed command selects the row of its mnemonic in the opcode map (30_encoding R49, R53). -/
def Sys2Proof.Laws.EncodingRow.Statement (i : Sys2Proof.Instr) : Prop :=
  Sys2Proof.wellFormed i = true →
    ∃ r ∈ Sys2Proof.opcodeMap, r.mnemonic = Sys2Proof.mnemonic i ∧ r.selects (Sys2Proof.encode i) = true

namespace Sys2Proof.Laws

theorem EncodingRow.nop : EncodingRow.Statement .nop := fun _ => ⟨⟨"NOP", 0x00000000, 0xFFFFFFFF⟩, by decide⟩

theorem EncodingRow.fft : EncodingRow.Statement .fft := fun _ => ⟨⟨"FFT", 0x00000001, 0xFFFFFFFF⟩, by decide⟩

theorem EncodingRow.ifft : EncodingRow.Statement .ifft := fun _ => ⟨⟨"IFFT", 0x00000002, 0xFFFFFFFF⟩, by decide⟩

theorem EncodingRow.bitrev : EncodingRow.Statement .bitrev := fun _ => ⟨⟨"BITREV", 0x00000003, 0xFFFFFFFF⟩, by decide⟩

theorem EncodingRow.stages : EncodingRow.Statement .stages := fun _ => ⟨⟨"STAGES", 0x00000004, 0xFFFFFFFF⟩, by decide⟩

theorem EncodingRow.stage (s : Nat) : EncodingRow.Statement (.stage s) := by
  intro h
  have hs : s < 32 := Nat.lt_succ_of_le (of_decide_eq_true h)
  have hsel : ∀ k < 32, (⟨"STAGE", 0x00000005, 0xFFFFFE0F⟩ : OpcodeRow).selects (encode (.stage k)) = true := by decide
  exact ⟨⟨"STAGE", 0x00000005, 0xFFFFFE0F⟩, by decide, rfl, hsel s hs⟩

theorem EncodingRow.conj : EncodingRow.Statement .conj := fun _ => ⟨⟨"CONJ", 0x00000006, 0xFFFFFFFF⟩, by decide⟩

theorem EncodingRow.scale : EncodingRow.Statement .scale := fun _ => ⟨⟨"SCALE", 0x00000007, 0xFFFFFFFF⟩, by decide⟩

end Sys2Proof.Laws
end

