-- ==== Sys2Proof/Tests/Slice0.lean ====
section
/-!
SUPPORT. Tests, with expected results from the spec's words and vectors, and for each statement with hypotheses a witness
that meets them all.
-/

namespace Sys2Proof.Tests

open Sys2Proof Sys2Proof.Machine Sys2Proof.Claims

/-! ### Helpers -/

/-- Sample memories holding the points of a list from index 0. -/
def loaded (l : List (Word × Word)) : Samples := l.zipIdx.foldl (fun x p => x.setPoint p.2 p.1) { re := [], im := [] }

/-- An idle block with both lengths `n` and the points of a list. -/
def idle (n : Word) (l : List (Word × Word)) : State :=
  { State.reset with reLen := n, imLen := n, samples := loaded l }

/-- The first `n` points after a command is submitted and completes; none where it is not accepted or stops. -/
def resultOf (i : Instr) (n : Nat) (s : State) : Option (List (Word × Word)) :=
  match exec i s with
  | .next t =>
    if t.status.busy then
      match engineCompletes t with
      | .next u => if statusWord u.status = 2 then some ((List.range n).map u.samples.point) else none
      | _ => none
    else none
  | _ => none

/-- The STATUS word after one step that writes `v` to CMD. -/
def statusAfterWrite (v : Nat) (s : State) : Option Word :=
  match step (s.withFetchWord 32 v) with
  | .next t => some (statusWord t.status)
  | _ => none

/-- STATUS and the read data after one access. -/
def afterAccess (a : Access) (s : State) : Option (Word × Word) :=
  match access a s with
  | .next t => some (statusWord t.status, t.rdata)
  | _ => none

/-- `f:1`, `f:2`, `f:3`, `f:4` as patterns. -/
def ramp : List (Word × Word) := [(0x3F800000, 0), (0x40000000, 0), (0x40400000, 0), (0x40800000, 0)]

/-- A block running FFT on two points (program P5). -/
def running : State := accepted 0x1 0 1 (idle 2 [(0x3F800000, 0), (0xBF800000, 0)])

/-! ### Well-formedness: the one check refuses its ill-formed term (30_encoding R53) -/

theorem test_wellFormed_stage_31 : wellFormed (.stage 31) = true := by decide

theorem test_illFormed_stage_32 : wellFormed (.stage 32) = false := by decide

/-! ### Decoding, each word written out from R48 and R49: RSV, S, OP -/

theorem test_decode_nop : decode (0b00000000000000000000000#23 ++ 0b00000#5 ++ 0b0000#4) = .ok .nop := by decide

theorem test_decode_fft : decode (0b00000000000000000000000#23 ++ 0b00000#5 ++ 0b0001#4) = .ok .fft := by decide

theorem test_decode_ifft : decode (0b00000000000000000000000#23 ++ 0b00000#5 ++ 0b0010#4) = .ok .ifft := by decide

theorem test_decode_bitrev : decode (0b00000000000000000000000#23 ++ 0b00000#5 ++ 0b0011#4) = .ok .bitrev := by decide

theorem test_decode_stages : decode (0b00000000000000000000000#23 ++ 0b00000#5 ++ 0b0100#4) = .ok .stages := by decide

theorem test_decode_stage_19 : decode (0b00000000000000000000000#23 ++ 0b10011#5 ++ 0b0101#4) = .ok (.stage 19) := by
  decide

theorem test_decode_conj : decode (0b00000000000000000000000#23 ++ 0b00000#5 ++ 0b0110#4) = .ok .conj := by decide

theorem test_decode_scale : decode (0b00000000000000000000000#23 ++ 0b00000#5 ++ 0b0111#4) = .ok .scale := by decide

/-- V70 to V74: a reserved opcode, S on NOP, RSV bits 9 and 31, S on STAGES. -/
theorem test_decode_illegal :
    decode 0x00000008 = .error .reservedOpcode ∧ decode 0x00000010 = .error .stageOnOtherOpcode ∧
      decode 0x00000200 = .error .reservedBits ∧ decode 0x80000001 = .error .reservedBits ∧
      decode 0x00000024 = .error .stageOnOtherOpcode := by decide

/-- R53: `STAGE 16` = 0x00000105. -/
theorem test_encode_stage_16 : encode (.stage 16) = 0x00000105 := by decide

/-! ### Binary32 and the datapath -/

/-- V21: W(3,3) is (+0, 0x3F7FFFFF). -/
theorem test_cmul_rotation_drift :
    cmul (0x3F3504F3, 0x3F3504F3) (0x3F3504F3, 0x3F3504F3) = (0x00000000, 0x3F7FFFFF) := by decide +kernel

/-- V22, V23: an infinity times +0 is CNAN; overflow gives infinities. -/
theorem test_cmul_corners :
    cmul (0x7F800000, 0) (0x3F800000, 0) = (0x7F800000, 0x7FC00000) ∧
      cmul (0x7F7FFFFF, 0x7F7FFFFF) (0x7F7FFFFF, 0) = (0x7F800000, 0x7F800000) := by decide +kernel

/-- The last rotations of stage 4 (42_butterfly R75). -/
theorem test_rotation_stage4 :
    rotation binary32 4 4 = (0xB3000000, 0x3F7FFFFF) ∧ rotation binary32 4 7 = (0xBF6C835C, 0x3EC3EF13) := by
  decide +kernel

/-! ### The commands, from the vectors of 95_test_vectors -/

/-- Example of R62: with RE_LEN = 3 and IM_LEN = 5 NOP leaves STATUS = 0x00000002. -/
theorem test_nop : statusAfterWrite 0x00000000 { State.reset with reLen := 3, imLen := 5 } = some 0x00000002 := by
  decide +kernel

/-- V10 at N = 8: order 0, 4, 2, 6, 1, 5, 3, 7, both channels. -/
theorem test_bitrev_8 :
    resultOf .bitrev 8 (idle 8 [(10, 20), (11, 21), (12, 22), (13, 23), (14, 24), (15, 25), (16, 26), (17, 27)]) =
      some [(10, 20), (14, 24), (12, 22), (16, 26), (11, 21), (15, 25), (13, 23), (17, 27)] := by decide +kernel

/-- V12: signalling NaN, NaN payload, -0 and a subnormal move bit for bit. -/
theorem test_bitrev_patterns :
    resultOf .bitrev 4 (idle 4 [(0x3F800000, 0), (0x7F800001, 0xFFC00005), (0x80000000, 0x40000000), (0x7F800000, 1)]) =
      some [(0x3F800000, 0), (0x80000000, 0x40000000), (0x7F800001, 0xFFC00005), (0x7F800000, 1)] := by decide +kernel

/-- V29: signed zeros through one butterfly. -/
theorem test_stage_1_signed_zeros :
    resultOf (.stage 1) 2 (idle 2 [(0x80000000, 0x80000000), (0x80000000, 0x80000000)]) =
      some [(0x00000000, 0x80000000), (0x80000000, 0x00000000)] := by decide +kernel

/-- V37: STAGE 2 on [1, 2, 3, 4]. -/
theorem test_stage_2 :
    resultOf (.stage 2) 4 (idle 4 ramp) =
      some [(0x40800000, 0), (0x40000000, 0x40800000), (0xC0000000, 0), (0x40000000, 0xC0800000)] := by decide +kernel

/-- V38: STAGES on [1, 2, 3, 4], without the permutation. -/
theorem test_stages :
    resultOf .stages 4 (idle 4 ramp) =
      some [(0x41200000, 0), (0xBF800000, 0xBF800000), (0xC0800000, 0), (0xBF800000, 0x3F800000)] := by decide +kernel

/-- V32: FFT of [1, 2, 3, 4]. -/
theorem test_fft_ramp :
    resultOf .fft 4 (idle 4 ramp) =
      some [(0x41200000, 0), (0xC0000000, 0xC0000000), (0xC0000000, 0), (0xC0000000, 0x40000000)] := by decide +kernel

/-- V34: FFT of the shifted impulse at N = 8, the rotation sequence and its negation. -/
theorem test_fft_impulse_8 :
    resultOf .fft 8 (idle 8 [(0, 0), (0x3F800000, 0), (0, 0), (0, 0), (0, 0), (0, 0), (0, 0), (0, 0)]) =
      some [(0x3F800000, 0x00000000), (0x3F3504F3, 0x3F3504F3), (0x00000000, 0x3F7FFFFF), (0xBF3504F2, 0x3F3504F2),
        (0xBF800000, 0x00000000), (0xBF3504F3, 0xBF3504F3), (0x00000000, 0xBF7FFFFF), (0x3F3504F2, 0xBF3504F2)] := by
  decide +kernel

/-- V55: IFFT of the FFT of [1, 2, 3, 4], three zeros coming back as -0. -/
theorem test_ifft :
    resultOf .ifft 4 (idle 4 [(0x41200000, 0), (0xC0000000, 0xC0000000), (0xC0000000, 0), (0xC0000000, 0x40000000)]) =
      some [(0x3F800000, 0x80000000), (0x40000000, 0x80000000), (0x40400000, 0), (0x40800000, 0x80000000)] := by
  decide +kernel

/-- V60: at N = 1 a NaN pair leaves IFFT as (CNAN, CNAN negated). -/
theorem test_ifft_nan : resultOf .ifft 1 (idle 1 [(0x7FC00001, 0x7FC00001)]) = some [(0x7FC00000, 0xFFC00000)] := by
  decide +kernel

/-- V50: CONJ flips the sign of zeros and NaNs alike. -/
theorem test_conj :
    resultOf .conj 4 (idle 4 [(1, 0x00000000), (2, 0x80000000), (3, 0x3F800000), (4, 0x7FC00001)]) =
      some [(1, 0x80000000), (2, 0x00000000), (3, 0xBF800000), (4, 0xFFC00001)] := by decide +kernel

/-- V52: SCALE by 1/4 rounds in the subnormal range and canonicalises NaNs. -/
theorem test_scale_4 :
    resultOf .scale 4 (idle 4 [(0x40800000, 0x7FC00001), (0x3F800000, 0xFFC00000), (0x00000001, 0x80000000),
        (0x7F800000, 0x00000003)]) =
      some [(0x3F800000, 0x7FC00000), (0x3E800000, 0x7FC00000), (0x00000000, 0x80000000), (0x7F800000, 0x00000001)] := by
  decide +kernel

/-- V53: ties round to even. -/
theorem test_scale_ties :
    resultOf .scale 2 (idle 2 [(0x00000003, 0x00800000), (0x00000001, 0x80000003)]) =
      some [(0x00000002, 0x00400000), (0x00000000, 0x80000002)] := by decide +kernel

/-! ### Submission and validation -/

/-- V79, V81, V83, V85 and V42: the codes after one step. -/
theorem test_validation_codes :
    statusAfterWrite 1 (idle 0 []) = some 0x32 ∧ statusAfterWrite 1 (idle 2048 []) = some 0x42 ∧
      statusAfterWrite 1 (idle 1024 []) = some 0x01 ∧ statusAfterWrite 0x35 (idle 4 []) = some 0x52 ∧
      statusAfterWrite 0x15 (idle 1 []) = some 0x52 := by decide +kernel

/-- V76, V77: ILLEGAL_CMD before the lengths, LEN_MISMATCH before LEN_NOT_POW2. -/
theorem test_validation_priority :
    statusAfterWrite 8 { State.reset with reLen := 3, imLen := 5 } = some 0x12 ∧
      statusAfterWrite 1 { State.reset with reLen := 3, imLen := 5 } = some 0x22 := by decide +kernel

/-! ### The port -/

/-- V90: a write of all ones to STATUS clears DONE, HAZ and BUSERR and keeps ERR. -/
theorem test_status_write :
    afterAccess (wordWrite 0x004 0xFFFFFFFF)
        { State.reset with status := { busy := false, done := true, err := 3, haz := true, buserr := true } } =
      some (0x00000030, 0) := by decide +kernel

/-- V94 to V97: a half-word read, a misaligned write, an unmapped read, a read beyond N_MAX. -/
theorem test_illegal_accesses :
    afterAccess { dir := .read, off := 0x004, size := .half, data := 0 } State.reset = some (0x200, 0) ∧
      afterAccess (wordWrite 0x100002 0) State.reset = some (0x200, 0) ∧
      afterAccess (wordRead 0x000018) State.reset = some (0x200, 0) ∧
      afterAccess (wordRead 0x101000) State.reset = some (0x200, 0) := by decide +kernel

/-- V92, V98: CAP in two builds, and RE[1] in the build with N_MAX = 1. -/
theorem test_cap_and_smallest_build :
    afterAccess (wordRead 0x014) State.reset = some (0, 0x0000000A) ∧
      afterAccess (wordRead 0x014) (State.resetFor 0) = some (0, 0) ∧
      afterAccess (wordRead 0x100004) (State.resetFor 0) = some (0x200, 0) := by decide +kernel

/-- V99, V103: while busy a sample read is refused with HAZ, and an illegal write sets BUSERR, not HAZ. -/
theorem test_busy_accesses :
    afterAccess (wordRead 0x100004) running = some (0x101, 0) ∧
      afterAccess { dir := .write, off := 0x100000, size := .byte, data := 0 } running = some (0x201, 0) := by
  decide +kernel

/-- R40: lane 0 of a stored word lies at the lowest offset. -/
theorem test_little_endian :
    ((loaded [(0x11223344, 0)]).re.read 0x100000, (loaded [(0x11223344, 0)]).re.read 0x100003) =
      (some 0x44, some 0x11) := by decide +kernel

/-- R53, R55: `LEN 4` and `CMD STAGE 1`, as accesses. -/
theorem test_script_lines :
    scriptAccesses [.len (.word 4), .cmd (.stage 1), .wait] =
      [.access (wordWrite 0x008 4), .access (wordWrite 0x00C 4), .access (wordWrite 0x000 0x15), .poll 0x004 2 2] := by
  decide

/-- R54: `f:1` and `f:-2` of a script are their patterns. -/
theorem test_script_decimal :
    valueWord (.decimal false 1 0) = 0x3F800000 ∧ valueWord (.decimal true 20 1) = 0xC0000000 := by decide +kernel

/-- R54: a POLL line takes `f:1` as its value, as W does: `POLL RE[1], 0xFFFFFFFF, f:1`. -/
theorem test_script_poll_decimal :
    scriptAccesses [.poll (.sample .re 1) (.word 0xFFFFFFFF) (.decimal false 1 0)] =
      [.poll 0x100004 0xFFFFFFFF 0x3F800000] := by decide +kernel

/-- V92 as the line `R CAP = 0x0000000A`: the read it issues, and that what it states holds after it. -/
theorem test_script_stated_read :
    scriptAccesses [.read (.reg .cap) (some (.word 0x0000000A))] = [.access (wordRead 0x014)] ∧
      statedHolds (.read (.reg .cap) (some (.word 0x0000000A))) (hostRead 0x014 .word State.reset) = true ∧
      statedHolds (.read (.reg .cap) (some (.word 0x0000000B))) (hostRead 0x014 .word State.reset) = false := by
  decide +kernel

/-- V112: right after power-on FFT is rejected with LEN_NOT_POW2. -/
theorem test_reset_then_fft : statusAfterWrite 1 State.reset = some 0x00000032 := by decide +kernel

/-! ### Witnesses: a state and operands that meet each statement's hypotheses -/

/-- The lengths of 4 points, and the largest and the smallest length of the build. -/
theorem witness_lengths :
    LengthsAre (idle 4 ramp) 2 ∧ LengthsAre (idle 1024 []) 10 ∧ LengthsAre (idle 1 []) 0 := by
  unfold LengthsAre; decide +kernel

/-- BitrevReversesIndices, StagesComputeAllStages, FftComputesTransform, IfftComputesInverse, ConjFlipsImaginarySigns,
ScaleMultipliesBothChannels, FftIsBitrevThenStages, IfftIsFourCommands: an idle state with lengths of 2^m, at the smallest
and the largest m. -/
theorem witness_commands :
    ((idle 1 []).status.busy = false ∧ LengthsAre (idle 1 []) 0) ∧
      ((idle 1024 []).status.busy = false ∧ LengthsAre (idle 1024 []) 10) :=
  ⟨⟨rfl, witness_lengths.2.2⟩, rfl, witness_lengths.2.1⟩

/-- StageComputesClosedForm, StagesAreEachStageInOrder: the first and the last stage of 4 points. -/
theorem witness_stage : (idle 4 ramp).status.busy = false ∧ LengthsAre (idle 4 ramp) 2 ∧ 1 ≤ 1 ∧ 1 ≤ 2 ∧ 2 ≤ 2 :=
  ⟨rfl, witness_lengths.1, by decide⟩

/-- EncodedCommandsDecodeBack, DecodedWordsEncodeBack, at the largest stage index. -/
theorem witness_encoding : wellFormed (.stage 31) = true ∧ decode 0x000001F5 = .ok (.stage 31) := by decide

/-- WordsDecodeByTheirRow: a word that selects a row, one that selects none. -/
theorem witness_rows :
    (∃ r ∈ opcodeMap, r.selects 0x000001F5 = true) ∧ (∀ r ∈ opcodeMap, r.selects 0x00000200 = false) ∧
      decode 0x000001F5 = .ok (.stage 31) := by decide

/-- StepRunsDecodedCommand: the host issues a legal word, and an ILLEGAL one. -/
theorem witness_issue :
    (HostIssues (State.reset.withFetchWord 32 0x15) (wordWrite 0x000 0x15) [] ∧
      (State.reset.withFetchWord 32 0x15).status.busy = false ∧ decode 0x15 = .ok (.stage 1)) ∧
    (HostIssues (State.reset.withFetchWord 32 8) (wordWrite 0x000 8) [] ∧
      (State.reset.withFetchWord 32 8).status.busy = false ∧ decode 8 = .error .reservedOpcode) := by
  unfold HostIssues; decide +kernel

/-- StepIsOneAgentsMove: the host with a line other than a CMD write, and with a turn but no line; each other hypothesis
on the turns; and the idle block with nothing to do. -/
theorem witness_turns :
    (nextTurn (loadScript [.read (.reg .cap) none] State.reset) = .host ∧
        (loadScript [.read (.reg .cap) none] State.reset).script = .access (wordRead 0x014) :: []) ∧
      (nextTurn { running with turns := [.host] } = .host ∧ running.script = []) ∧
      nextTurn { running with turns := [.complete] } = .complete ∧ nextTurn { running with turns := [.internal] } = .internal ∧
      nextTurn { running with turns := [.reset] } = .reset ∧ (running.turns = [] ∧ running.status.busy = true) ∧
      (State.reset.turns = [] ∧ State.reset.status.busy = false ∧ State.reset.script = []) := by decide +kernel

/-- SubmittedCommandRunsInTwoSteps: a command that runs, with no turn listed. -/
theorem witness_two_steps :
    wellFormed .fft = true ∧ (idle 4 ramp).status.busy = false ∧ (idle 4 ramp).turns = [] ∧
      ∃ u, RunsTo .fft (idle 4 ramp) u :=
  ⟨rfl, rfl, rfl, _, _, rfl, rfl, rfl⟩

/-- SubmissionFollowsValidation: each of its three cases, and every code. -/
theorem witness_validation :
    validateCode 0x200 State.reset = 1 ∧ validateCode 1 { State.reset with reLen := 4 } = 2 ∧
      validateCode 1 State.reset = 3 ∧ validateCode 1 (idle 2048 []) = 4 ∧ validateCode 0x35 (idle 4 []) = 5 ∧
      (validateCode 0 State.reset = 0 ∧ (0 : Word).toNat % 16 = 0) ∧
      (validateCode 0x25 (idle 4 []) = 0 ∧ (0x25 : Word).toNat % 16 ≠ 0) := by decide +kernel

/-- BusySubmissionOnlySetsHaz, NoHostAccessChangesRunningCommand (an access and the completing step),
SampleAccessesRefusedWhileBusy (the last index of the build). -/
theorem witness_busy :
    running.status.busy = true ∧ (∃ t, access (wordRead 0x004) running = .next t) ∧
      (∃ t, step running = .next t ∧ t.status.busy = false) ∧ 1023 < 2 ^ running.log2NMax.val :=
  ⟨rfl, ⟨_, rfl⟩, ⟨_, rfl, rfl⟩, by decide⟩

/-- CommandsRejectBadLengths: a mismatch, a length that is no power of two, one too big, and STAGE 0 and STAGE m + 1. -/
theorem witness_bad_lengths :
    (Instr.stage 3 ≠ .nop ∧ (idle 4 []).status.busy = false) ∧ ({ State.reset with reLen := 4 } : State).reLen ≠ ({ State.reset with reLen := 4 } : State).imLen ∧
      (¬∃ m, (idle 3 []).reLen.toNat = 2 ^ m) ∧ (idle 2048 []).reLen.toNat = 2 ^ 11 ∧ (idle 2048 []).log2NMax.val < 11 ∧
      (LengthsAre (idle 4 []) 2 ∧ 2 < 3) := by
  refine ⟨by decide, by decide, ?_, by decide, by decide, ⟨rfl, rfl, by decide⟩, by decide⟩
  rintro ⟨m, hm⟩
  have h : (3 : Nat) = 2 ^ m := hm
  rcases m with _ | _ | m
  · omega
  · omega
  · rw [pow_succ, pow_succ] at h
    omega

/-- SubmissionFrame, HazSetByExactlyThreeActions, OneStickyFlagPerAccess: an answer exists; from HAZ = 0 each of the three
kinds of access a busy block refuses, at the first and last mapped offsets. -/
theorem witness_answers :
    (∃ t, exec .fft (idle 4 ramp) = .next t ∧ t.status.busy = true) ∧ running.status.haz = false ∧
      (∃ t, access (wordWrite 0x000 0) running = .next t ∧ t.status.haz = true) ∧
      (∃ t, access (wordWrite 0x00C 0) running = .next t ∧ t.status.haz = true) ∧
      (∃ t, access (wordRead 0x200FFC) running = .next t ∧ t.status.haz = true) ∧
      (∃ t, access (wordRead 0x201000) running = .next t ∧ t.status.haz = false ∧ t.status.buserr = true) :=
  ⟨⟨_, rfl, rfl⟩, rfl, ⟨_, rfl, rfl⟩, ⟨_, rfl, rfl⟩, ⟨_, rfl, rfl⟩, ⟨_, rfl, rfl, rfl⟩⟩

/-- OneStickyFlagPerAccess: an access that changes ERR. -/
theorem witness_err_changes :
    ∃ t, access (wordWrite 0x000 8) State.reset = .next t ∧ t.status.err ≠ State.reset.status.err :=
  ⟨_, rfl, by decide⟩

/-- PowerOfTwoTest, ReversalReversesDigits, CursorIsReversedIndex, BitrevIsInvolution, NopCompletesAtOnce,
NegationFlipsOnlyBit31, ExactTransformIsPositiveExponentDft: values at the ends of their ranges. -/
theorem witness_ranges :
    (0x80000000 : Word).toNat = 2 ^ 31 ∧ 7 < 2 ^ 3 ∧ (1 ≤ 16 ∧ 1 ≤ 65534 ∧ 65534 + 2 ≤ 2 ^ 16) ∧
      (idle 0 []).status.busy = false ∧ ((0x10 : Word).toNat % 16 = 0 ∧ (0x10 : Word) ≠ 0) ∧ 31 < 32 := by
  decide +kernel

/-- DcTermIsPairwiseSum: [1, 2, 3, 4] with imaginary parts +0 and every partial sum finite. -/
theorem witness_dc :
    LengthsAre (idle 4 ramp) 2 ∧
      (∀ i < 2 ^ 2, (idle 4 ramp).samples.get .im i = 0 ∧ F32.isFinite ((idle 4 ramp).samples.get .re i) = true) ∧
      (∀ d p, d ≤ 2 → p < 2 ^ 2 → p % 2 ^ d = 0 →
        F32.isFinite (pairSum (fun q => (idle 4 ramp).samples.get .re (revBits 2 q)) d p) = true) := by
  have h : ∀ d ≤ 2, ∀ p < 2 ^ 2, p % 2 ^ d = 0 →
      F32.isFinite (pairSum (fun q => (idle 4 ramp).samples.get .re (revBits 2 q)) d p) = true := by decide +kernel
  exact ⟨witness_lengths.1, by decide +kernel, fun d p hd hp h0 => h d hd p hp h0⟩

/-- ResultDependsOnLatchedWordsOnly, CompletionFrame: a running command, and the same one beside other registers; both
complete. -/
theorem witness_complete :
    running.status.busy = true ∧ ({ running with irqEn := true } : State).status.busy = true ∧
      (∃ t, engineCompletes running = .next t) ∧ (∃ t, engineCompletes { running with irqEn := true } = .next t) :=
  ⟨rfl, rfl, ⟨_, rfl⟩, ⟨_, rfl⟩⟩

/-- RoundingIsNearestEven: each of its three cases, at the overflow threshold. -/
theorem witness_rounding :
    (0 : Nat) < 1 ∧ (2 ^ 128 - 2 ^ 103) * 1 ≤ 2 ^ 128 - 2 ^ 103 ∧ 0 < 2 ^ 128 - 2 ^ 103 - 1 ∧
      2 ^ 128 - 2 ^ 103 - 1 < (2 ^ 128 - 2 ^ 103) * 1 ∧ F32.isFinite 0x7F7FFFFF = true := by decide +kernel

/-- SumsAndProductsRoundOnce, NanResultsAreCanonical, SubtractionCorners, ScalingCorners: operands of each class. -/
theorem witness_operands :
    (F32.isFinite 0x3F800000 = true ∧ F32.value 0x3F800000 + F32.value 0xBF800000 = 0 ∧
        F32.value 0x3F800000 + F32.value 0x3F800000 ≠ 0) ∧
      F32.isNaN 0x7F800001 = true ∧ F32.isNaN (F32.fadd 0x7F800000 0xFF800000) = true ∧
      F32.isNaN (F32.fsub 0x7F800000 0x7F800000) = true ∧ F32.isNaN (F32.fmul 0x7F800000 0) = true ∧
      (F32.isInf 0xFF800000 = true ∧ (0x7F800000 : Word) ≠ 0xFF800000) ∧
      (F32.isNaN 0xFF800000 = false ∧ F32.isZero 0xFF800000 = false) ∧
      (F32.isInf 0x7F800000 = true ∧ F32.sign 0x7F800000 = F32.sign 0x7F800000) ∧ F32.isZero 0x80000000 = true ∧
      (F32.isFinite 0x08800000 = true ∧ 16 < F32.expField 0x08800000) ∧ F32.isNaN 0x00000001 = false := by
  decide +kernel

/-- TwiddleRomIsRoundedCosineAndSine: the first and the last stage; the stage whose cosine is an exact zero; and two finite
patterns of different values. -/
theorem witness_twiddle :
    (1 ≤ 1 ∧ 16 ≤ 16) ∧ Real.cos (Real.pi / 2 ^ (2 - 1)) = 0 ∧
      (F32.isFinite 0x3F800000 = true ∧ realValue 0x3F800000 ≠ realValue (twiddle 2).1) := by
  refine ⟨by decide, by simp, by decide, ?_⟩
  have h1 : F32.value 0x3F800000#32 ≠ 0 := by decide +kernel
  have h2 : F32.value (twiddle 2).1 = 0 := by decide +kernel
  simp [realValue, h1, h2]

/-- LengthRegisters, SampleAccessesWhileIdle, IllegalAccessOnlySetsBuserr, InterruptIsDoneAndEnabled: idle and busy states,
the last index of the build, an illegal access, a word with bit 1 set. -/
theorem witness_port :
    State.reset.status.busy = false ∧ running.status.busy = true ∧ 1023 < 2 ^ State.reset.log2NMax.val ∧
      ¬Legal State.reset (wordRead 0x018) ∧ Legal State.reset (wordRead 0x014) ∧
      Legal State.reset (wordRead 0x200FFC) ∧ ¬Legal State.reset (wordRead 0x201000) ∧ (2 : Word).getLsbD 1 = true := by
  unfold Legal Mapped; decide +kernel

/-- StickyFlagsStaySet: a step that clears HAZ and BUSERR by the host's write, and CapIsConstant: a step. -/
theorem witness_sticky :
    ∃ t, step (loadScript [.write (.reg .status) (.word 0x300)]
        { State.reset with status := { busy := false, done := false, err := 0, haz := true, buserr := true } }) = .next t ∧
      t.status.haz = false ∧ t.status.buserr = false :=
  ⟨_, rfl, rfl, rfl⟩

/-- PollRepeatsUntilMatch: the host is about to poll. -/
theorem witness_poll :
    nextTurn (loadScript [.wait] State.reset) = .host ∧
      (loadScript [.wait] State.reset).script = .poll 0x004 2 2 :: [] := by decide +kernel

/-- ResetInput: the reset input is asserted while a command runs, with a byte of IM below and one above the window of its
words. -/
theorem witness_reset :
    nextTurn { running with turns := [.reset] } = .reset ∧ running.status.busy = true ∧
      0x1FFFFF < chanBase .im ∧ chanBase .im + 4 * running.ln.toNat ≤ 0x200008 := by decide +kernel

/-- AcceptedCommandEnds, EveryStepKeepsInvariant, InvariantStatesNeverStop: the running block meets the invariant, and its
step answers. -/
theorem witness_invariant : BlockInv running ∧ running.status.busy = true ∧ ∃ t, step running = .next t := by
  refine ⟨?_, rfl, _, rfl⟩
  exact
    { reWf := by decide +kernel, imWf := by decide +kernel, reWindow := by decide +kernel, imWindow := by decide +kernel,
      busyClear := by decide +kernel, errLegal := by decide +kernel, latches := by decide +kernel,
      lengths := by decide +kernel }

end Sys2Proof.Tests
end

section
/-!
The length test and the index reversal of 00_scope R15 and R16.
-/

namespace Sys2Proof.Machine

/-! ### Powers of two (R15) -/

theorem isPow2_iff_and_eq_zero (n : Word) : isPow2 n = true ↔ n ≠ 0 ∧ n &&& (n - 1) = 0 := by
  simp [isPow2]

/-- The bit test on the word is the bit test on its number, so the library's test for powers of two applies. -/
theorem isPow2_iff_exists_two_pow (n : Word) : isPow2 n = true ↔ ∃ m, n.toNat = 2 ^ m := by
  rw [isPow2_iff_and_eq_zero]
  rcases eq_or_ne n 0 with rfl | hn
  · simpa using fun m => (Nat.two_pow_pos m).ne
  · have h0 : n.toNat ≠ 0 := fun h => hn (BitVec.eq_of_toNat_eq h)
    have h1 : (n &&& (n - 1)).toNat = n.toNat &&& (n.toNat - 1) := by
      have hle : (1 : Word) ≤ n := BitVec.le_def.mpr (Nat.one_le_iff_ne_zero.mpr h0)
      rw [BitVec.toNat_and, BitVec.toNat_sub_of_le hle]
      rfl
    have h2 : n &&& (n - 1) = 0 ↔ n.toNat &&& (n.toNat - 1) = 0 := by
      rw [← h1]; exact BitVec.toNat_inj.symm
    rw [and_iff_right hn, h2]
    exact Nat.and_sub_one_eq_zero_iff_isPowerOfTwo h0

theorem log2_of_toNat {n : Word} {m : Nat} (h : n.toNat = 2 ^ m) : log2 n = m := by
  rw [log2, h, Nat.log2_two_pow]

theorem toNat_eq_two_pow_iff (n : Word) (m : Nat) : n.toNat = 2 ^ m ↔ isPow2 n = true ∧ log2 n = m := by
  constructor
  · exact fun h => ⟨(isPow2_iff_exists_two_pow n).mpr ⟨m, h⟩, log2_of_toNat h⟩
  · rintro ⟨hn, rfl⟩
    obtain ⟨k, hk⟩ := (isPow2_iff_exists_two_pow n).mp hn
    rw [log2_of_toNat hk, hk]

/-! ### Index reversal (R16) -/

theorem revBits_lt (m i : Nat) : revBits m i < 2 ^ m := by
  induction m generalizing i with
  | zero => simp [revBits]
  | succ m ih =>
    have h1 := ih (i / 2)
    have h2 : (i % 2) * 2 ^ m ≤ 1 * 2 ^ m := Nat.mul_le_mul_right _ (by omega)
    rw [revBits, pow_succ]
    omega

theorem testBit_revBits {m b : Nat} (i : Nat) (hb : b < m) : (revBits m i).testBit b = i.testBit (m - 1 - b) := by
  induction m generalizing i with
  | zero => omega
  | succ m ih =>
    rw [revBits, mul_comm, Nat.testBit_two_pow_mul_add _ (revBits_lt m (i / 2))]
    split_ifs with h
    · rw [ih _ h, Nat.testBit_div_two]
      congr 1
      omega
    · obtain rfl : b = m := by omega
      simp

end Sys2Proof.Machine

namespace Sys2Proof.Proofs

open Sys2Proof Sys2Proof.Machine

/-- Settles O12: the bit test carried over to the word's number, and the exponent read off it. -/
theorem powerOfTwoTest : Obligations.PowerOfTwoTest := fun n =>
  ⟨isPow2_iff_and_eq_zero n, isPow2_iff_exists_two_pow n, toNat_eq_two_pow_iff n⟩

/-- Settles O22, by induction on the number of digits. -/
theorem reversalReversesDigits : Obligations.ReversalReversesDigits :=
  ⟨rfl, fun m i _ => ⟨revBits_lt m i, fun _ hb => testBit_revBits i hb⟩⟩

end Sys2Proof.Proofs
end

section
/-!
The fields and the classes of binary32 patterns (00_scope R7), and what negation (R12) does to them.
-/

namespace Sys2Proof.Machine.F32

/-! ### Fields -/

theorem expField_eq (a : Word) : expField a = a.toNat / 2 ^ 23 % 2 ^ 8 := by
  rw [expField, BitVec.extractLsb'_toNat, Nat.shiftRight_eq_div_pow]

theorem fracField_eq (a : Word) : fracField a = a.toNat % 2 ^ 23 := by
  rw [fracField, BitVec.extractLsb'_toNat, Nat.shiftRight_zero]

theorem sign_eq (a : Word) : sign a = decide (2 ^ 31 ≤ a.toNat) :=
  BitVec.msb_eq_decide a

/-- The three fields say the whole pattern (R7). -/
theorem eq_of_fields {a b : Word} (hs : sign a = sign b) (he : expField a = expField b)
    (hf : fracField a = fracField b) : a = b := by
  rw [sign_eq, sign_eq, decide_eq_decide] at hs
  rw [expField_eq, expField_eq] at he
  rw [fracField_eq, fracField_eq] at hf
  have ha := a.isLt
  have hb := b.isLt
  exact BitVec.eq_of_toNat_eq (by omega)

theorem toNat_pack (neg : Bool) {e f : Nat} (he : e < 2 ^ 8) (hf : f < 2 ^ 23) :
    (pack neg e f).toNat = (if neg then 2 ^ 31 else 0) + e * 2 ^ 23 + f := by
  rw [pack, BitVec.toNat_ofNat]
  exact Nat.mod_eq_of_lt (by cases neg <;> simp <;> omega)

theorem sign_pack (neg : Bool) {e f : Nat} (he : e < 2 ^ 8) (hf : f < 2 ^ 23) : sign (pack neg e f) = neg := by
  rw [sign_eq, toNat_pack neg he hf]
  cases neg <;> simp <;> omega

theorem expField_pack (neg : Bool) {e f : Nat} (he : e < 2 ^ 8) (hf : f < 2 ^ 23) : expField (pack neg e f) = e := by
  rw [expField_eq, toNat_pack neg he hf]
  cases neg <;> simp <;> omega

theorem fracField_pack (neg : Bool) {e f : Nat} (he : e < 2 ^ 8) (hf : f < 2 ^ 23) :
    fracField (pack neg e f) = f := by
  rw [fracField_eq, toNat_pack neg he hf]
  cases neg <;> simp <;> omega

/-! ### Classes -/

theorem isNaN_iff (a : Word) : isNaN a = true ↔ expField a = 255 ∧ fracField a ≠ 0 := by simp [isNaN]

theorem isInf_iff (a : Word) : isInf a = true ↔ expField a = 255 ∧ fracField a = 0 := by simp [isInf]

theorem isZero_iff (a : Word) : isZero a = true ↔ expField a = 0 ∧ fracField a = 0 := by simp [isZero]

theorem isFinite_iff (a : Word) : isFinite a = true ↔ expField a ≠ 255 := by simp [isFinite]

/-- A finite pattern is neither a NaN nor an infinity. -/
theorem not_isNaN_of_isFinite {a : Word} (h : isFinite a = true) : isNaN a = false :=
  Bool.eq_false_iff.mpr fun hn => (isFinite_iff a).mp h ((isNaN_iff a).mp hn).1

theorem not_isInf_of_isFinite {a : Word} (h : isFinite a = true) : isInf a = false :=
  Bool.eq_false_iff.mpr fun hi => (isFinite_iff a).mp h ((isInf_iff a).mp hi).1

theorem not_isNaN_of_isInf {a : Word} (h : isInf a = true) : isNaN a = false :=
  Bool.eq_false_iff.mpr fun hn => ((isNaN_iff a).mp hn).2 ((isInf_iff a).mp h).2

theorem not_isZero_of_isInf {a : Word} (h : isInf a = true) : isZero a = false :=
  Bool.eq_false_iff.mpr fun hz => by
    have h0 := ((isZero_iff a).mp hz).1
    have h255 := ((isInf_iff a).mp h).1
    omega

/-- There is one infinity of each sign (R7). -/
theorem eq_inf_of_isInf {a : Word} (h : isInf a = true) : a = inf (sign a) := by
  obtain ⟨he, hf⟩ := (isInf_iff a).mp h
  refine eq_of_fields ?_ (he.trans ?_) (hf.trans ?_) <;> cases sign a <;> rfl

theorem sign_ne_of_isInf_of_ne {a b : Word} (ha : isInf a = true) (hb : isInf b = true) (hne : a ≠ b) :
    sign a ≠ sign b := fun hs => hne (by rw [eq_inf_of_isInf ha, eq_inf_of_isInf hb, hs])

@[simp] theorem isNaN_inf (neg : Bool) : isNaN (inf neg) = false := by cases neg <;> rfl

@[simp] theorem isNaN_zero (neg : Bool) : isNaN (zero neg) = false := by cases neg <;> rfl

theorem natAbs_value (a : Word) : (value a).natAbs = magnitude a := by
  rcases value_cases a with h | h <;> simp [h]

/-! ### Negation (R12) -/

theorem getLsbD_fneg (a : Word) (b : Nat) :
    (fneg a).getLsbD b = if b = 31 then !a.getLsbD 31 else a.getLsbD b := by
  have hmask : (0x80000000 : Word) = BitVec.twoPow 32 31 := rfl
  rw [fneg, hmask, BitVec.getLsbD_xor, BitVec.getLsbD_twoPow]
  split_ifs with h
  · simp [h]
  · simp [Ne.symm h]

/-- A field below bit 31 is kept. -/
theorem extractLsb'_fneg (a : Word) {start len : Nat} (h : start + len ≤ 31) :
    (fneg a).extractLsb' start len = a.extractLsb' start len := by
  refine BitVec.eq_of_getLsbD_eq fun i hi => ?_
  rw [BitVec.getLsbD_extractLsb', BitVec.getLsbD_extractLsb', getLsbD_fneg, if_neg (by omega)]

@[simp] theorem sign_fneg (a : Word) : sign (fneg a) = !sign a := getLsbD_fneg a 31

@[simp] theorem expField_fneg (a : Word) : expField (fneg a) = expField a :=
  congrArg BitVec.toNat (extractLsb'_fneg a (by decide))

@[simp] theorem fracField_fneg (a : Word) : fracField (fneg a) = fracField a :=
  congrArg BitVec.toNat (extractLsb'_fneg a (by decide))

@[simp] theorem isNaN_fneg (a : Word) : isNaN (fneg a) = isNaN a := by simp [isNaN]

@[simp] theorem isInf_fneg (a : Word) : isInf (fneg a) = isInf a := by simp [isInf]

@[simp] theorem isFinite_fneg (a : Word) : isFinite (fneg a) = isFinite a := by simp [isFinite]

@[simp] theorem value_fneg (a : Word) : value (fneg a) = -value a := by
  cases h : sign a <;> simp [value, magnitude, h]

end Sys2Proof.Machine.F32

namespace Sys2Proof.Proofs

open Sys2Proof.Machine

/-- Settles O31: the mask of R12 is the single bit 31. -/
theorem negationFlipsOnlyBit31 : Obligations.NegationFlipsOnlyBit31 := fun a b _ => F32.getLsbD_fneg a b

end Sys2Proof.Proofs
end

section
/-!
RN32 (00_scope R8). Everything is measured in units of 2^-149, as `magnitude` is: there the quantum `2^q` is the number
`2 ^ quantumExp` and the ratio num / den is `num * 2 ^ 149 / den`.
-/

namespace Sys2Proof.Machine.F32

/-! ### The nearest integer -/

/-- The rounded count is at most half a unit away, and even when it is exactly that far. -/
theorem roundHalfEven_spec (p : Nat) {d : Nat} (hd : 0 < d) :
    2 * (roundHalfEven p d * d) ≤ 2 * p + d ∧ 2 * p ≤ 2 * (roundHalfEven p d * d) + d ∧
      (2 * (roundHalfEven p d * d) = 2 * p + d ∨ 2 * p = 2 * (roundHalfEven p d * d) + d →
        roundHalfEven p d % 2 = 0) := by
  have hp : p / d * d + p % d = p := Nat.div_add_mod' p d
  have hr : p % d < d := Nat.mod_lt p hd
  simp only [roundHalfEven]
  split_ifs with h
  · rw [add_one_mul]
    omega
  · omega

/-- No other multiple of `d` is nearer to `p`, and one as near leaves an even count (R8). -/
theorem roundHalfEven_nearest (p : Nat) {d : Nat} (hd : 0 < d) (j : Nat) :
    (((roundHalfEven p d * d : Nat) : Int) - p).natAbs ≤ (((j * d : Nat) : Int) - p).natAbs ∧
      ((((roundHalfEven p d * d : Nat) : Int) - p).natAbs = (((j * d : Nat) : Int) - p).natAbs →
        j ≠ roundHalfEven p d → roundHalfEven p d % 2 = 0) := by
  obtain ⟨hup, hlow, heven⟩ := roundHalfEven_spec p hd
  generalize roundHalfEven p d = n at *
  rcases Nat.lt_trichotomy j n with h | rfl | h
  · have h1 : (j + 1) * d ≤ n * d := Nat.mul_le_mul_right d h
    rw [add_one_mul] at h1
    omega
  · exact ⟨le_rfl, fun _ h => absurd rfl h⟩
  · have h1 : (n + 1) * d ≤ j * d := Nat.mul_le_mul_right d h
    rw [add_one_mul] at h1
    omega

theorem roundHalfEven_mul_right (p d : Nat) {c : Nat} (hc : 0 < c) :
    roundHalfEven (p * c) (d * c) = roundHalfEven p d := by
  have h1 : 2 * (p % d * c) > d * c ↔ 2 * (p % d) > d := by
    rw [← mul_assoc]; exact Nat.mul_lt_mul_right hc
  have h2 : 2 * (p % d * c) = d * c ↔ 2 * (p % d) = d := by
    rw [← mul_assoc]; exact Nat.mul_left_inj hc.ne'
  simp only [roundHalfEven, Nat.mul_div_mul_right _ _ hc, Nat.mul_mod_mul_right, h1, h2]

/-! ### The quantum -/

/-- A comparison with a power of two whose exponent may be negative, said in natural numbers. -/
theorem mul_zpow_le_iff (a b i j : Nat) : (a : ℚ) * 2 ^ ((i : ℤ) - j) ≤ b ↔ a * 2 ^ i ≤ b * 2 ^ j := by
  rw [zpow_sub₀ two_ne_zero, zpow_natCast, zpow_natCast, ← mul_div_assoc, div_le_iff₀ (by positivity)]
  exact_mod_cast Iff.rfl

theorem lt_mul_zpow_iff (a b i j : Nat) : (b : ℚ) < a * 2 ^ ((i : ℤ) - j) ↔ b * 2 ^ j < a * 2 ^ i := by
  rw [← not_le, ← not_le, mul_zpow_le_iff]

theorem floorLog2_spec {num den : Nat} (hnum : 0 < num) (hden : 0 < den) :
    (den : ℚ) * 2 ^ floorLog2 num den ≤ num ∧ (num : ℚ) < den * 2 ^ (floorLog2 num den + 1) := by
  have hn := Nat.log2_self_le hnum.ne'
  have hn' : num < 2 ^ (num.log2 + 1) := Nat.lt_log2_self
  have hd := Nat.log2_self_le hden.ne'
  have hd' : den < 2 ^ (den.log2 + 1) := Nat.lt_log2_self
  simp only [floorLog2]
  split_ifs with h
  · have hlow := (mul_zpow_le_iff _ _ _ _).mpr h
    rw [Int.toNat_sub_toNat_neg] at hlow
    refine ⟨hlow, ?_⟩
    rw [show (num.log2 : ℤ) - den.log2 + 1 = ((num.log2 + 1 : ℕ) : ℤ) - den.log2 by push_cast; ring, lt_mul_zpow_iff,
      mul_comm den]
    exact Nat.mul_lt_mul_of_lt_of_le hn' hd (by positivity)
  · have hup := (lt_mul_zpow_iff _ _ _ _).mpr (not_le.mp h)
    rw [Int.toNat_sub_toNat_neg] at hup
    refine ⟨?_, by rwa [sub_add_cancel]⟩
    rw [show (num.log2 : ℤ) - den.log2 - 1 = (num.log2 : ℤ) - (den.log2 + 1 : ℕ) by push_cast; ring, mul_zpow_le_iff,
      mul_comm den]
    exact Nat.mul_le_mul hn hd'.le

/-- The exponent of the quantum of R8, in units of 2^-149. -/
def quantumExp (num den : Nat) : Nat := (quantum num den + 149).toNat

theorem quantum_eq (num den : Nat) : quantum num den = (quantumExp num den : ℤ) - 149 := by
  unfold quantumExp quantum
  omega

/-- The ratio is below 2^24 quanta. -/
theorem ratio_lt_quanta {num den : Nat} (hnum : 0 < num) (hden : 0 < den) :
    num * 2 ^ 149 < 2 ^ 24 * (2 ^ quantumExp num den * den) := by
  have hle : floorLog2 num den + 1 ≤ ((quantumExp num den + 24 : ℕ) : ℤ) - (149 : ℕ) := by
    have := quantum_eq num den
    unfold quantum at this
    omega
  have h1 : (num : ℚ) < den * 2 ^ (((quantumExp num den + 24 : ℕ) : ℤ) - (149 : ℕ)) :=
    (floorLog2_spec hnum hden).2.trans_le (by gcongr; norm_num)
  have h2 := (lt_mul_zpow_iff _ _ _ _).mp h1
  rwa [pow_add, ← mul_assoc, mul_comm _ (2 ^ 24), mul_comm den] at h2

/-- Above the subnormal quantum the ratio is at least 2^23 quanta. -/
theorem quanta_le_ratio {num den : Nat} (hnum : 0 < num) (hden : 0 < den) (he : quantumExp num den ≠ 0) :
    2 ^ 23 * (2 ^ quantumExp num den * den) ≤ num * 2 ^ 149 := by
  have heq : floorLog2 num den = ((quantumExp num den + 23 : ℕ) : ℤ) - (149 : ℕ) := by
    have := quantum_eq num den
    unfold quantum at this
    omega
  have h1 := (floorLog2_spec hnum hden).1
  rw [heq, mul_zpow_le_iff, pow_add, ← mul_assoc, mul_comm _ (2 ^ 23), mul_comm den] at h1
  exact h1

/-! ### The rounded count -/

/-- The count `n` of R8: the ratio in quanta, rounded. -/
def quantumCount (num den : Nat) : Nat := roundHalfEven (num * 2 ^ 149) (2 ^ quantumExp num den * den)

theorem quantumCount_spec (num : Nat) {den : Nat} (hden : 0 < den) :
    2 * (quantumCount num den * (2 ^ quantumExp num den * den)) ≤ 2 * (num * 2 ^ 149) + 2 ^ quantumExp num den * den ∧
      2 * (num * 2 ^ 149) ≤
        2 * (quantumCount num den * (2 ^ quantumExp num den * den)) + 2 ^ quantumExp num den * den :=
  (roundHalfEven_spec (num * 2 ^ 149) (by positivity)).imp_right And.left

theorem quantumCount_nearest_multiple (num : Nat) {den : Nat} (hden : 0 < den) (j : Nat) :
    let here := ((quantumCount num den * (2 ^ quantumExp num den * den) : Nat) : Int) - ((num * 2 ^ 149 : Nat) : Int)
    let there := ((j * (2 ^ quantumExp num den * den) : Nat) : Int) - ((num * 2 ^ 149 : Nat) : Int)
    here.natAbs ≤ there.natAbs ∧
      (here.natAbs = there.natAbs → j ≠ quantumCount num den → quantumCount num den % 2 = 0) :=
  roundHalfEven_nearest (num * 2 ^ 149) (by positivity) j

theorem quantumCount_le {num den : Nat} (hnum : 0 < num) (hden : 0 < den) : quantumCount num den ≤ 2 ^ 24 := by
  have hup := (quantumCount_spec num hden).1
  have hlt := ratio_lt_quanta hnum hden
  by_contra hn
  have h1 := Nat.mul_le_mul_right (2 ^ quantumExp num den * den) (show 2 ^ 24 + 1 ≤ quantumCount num den by omega)
  omega

theorem le_quantumCount {num den : Nat} (hnum : 0 < num) (hden : 0 < den) (he : quantumExp num den ≠ 0) :
    2 ^ 23 ≤ quantumCount num den := by
  have hD : 0 < 2 ^ quantumExp num den * den := by positivity
  have hlow := (quantumCount_spec num hden).2
  have hle := quanta_le_ratio hnum hden he
  by_contra hn
  have h1 := Nat.mul_le_mul_right (2 ^ quantumExp num den * den) (show quantumCount num den + 1 ≤ 2 ^ 23 by omega)
  rw [add_one_mul] at h1
  omega

/-- Below the overflow threshold of R8, in units of 2^-149: 2^128 - 2^103 is 2^25 - 1 halves of the largest quantum. -/
theorem ratio_lt_threshold {num den : Nat} (h : num < (2 ^ 128 - 2 ^ 103) * den) :
    num * 2 ^ 149 < (2 ^ 25 - 1) * (2 ^ 252 * den) := by
  calc num * 2 ^ 149 < (2 ^ 128 - 2 ^ 103) * den * 2 ^ 149 := Nat.mul_lt_mul_of_pos_right h (by positivity)
    _ = (2 ^ 25 - 1) * (2 ^ 252 * den) := by
      rw [show 2 ^ 128 - 2 ^ 103 = (2 ^ 25 - 1) * 2 ^ 103 by norm_num, show 252 = 103 + 149 by rfl, pow_add]
      ac_rfl

/-- Below the threshold the quantum is one of a finite pattern. -/
theorem quantumExp_le {num den : Nat} (hnum : 0 < num) (hden : 0 < den) (h : num < (2 ^ 128 - 2 ^ 103) * den) :
    quantumExp num den ≤ 253 := by
  by_contra hn
  have h1 := quanta_le_ratio hnum hden (by omega)
  have h2 := Nat.mul_le_mul_right den (Nat.pow_le_pow_right two_pos (show 252 + 2 ≤ quantumExp num den by omega))
  have h3 := ratio_lt_threshold h
  rw [pow_add, mul_right_comm] at h2
  omega

/-- Below the threshold the largest quantum is not taken 2^24 times. -/
theorem quantumCount_lt_of_max {num den : Nat} (hnum : 0 < num) (hden : 0 < den)
    (h : num < (2 ^ 128 - 2 ^ 103) * den) (he : quantumExp num den = 253) : quantumCount num den < 2 ^ 24 := by
  refine lt_of_le_of_ne (quantumCount_le hnum hden) fun hn => ?_
  have hup := (quantumCount_spec num hden).1
  have h3 := ratio_lt_threshold h
  rw [hn, he, show 253 = 252 + 1 by rfl, pow_add, mul_right_comm] at hup
  omega

/-! ### The encoded count -/

theorem magnitude_pack (neg : Bool) {e f : Nat} (he : e < 2 ^ 8) (hf : f < 2 ^ 23) :
    magnitude (pack neg e f) = if e = 0 then f else (2 ^ 23 + f) * 2 ^ (e - 1) := by
  rw [magnitude, expField_pack neg he hf, fracField_pack neg he hf]

/-- A pattern that stands for `n` quanta `2 ^ e` with the sign `neg`: finite, and with a fraction as even as `n`. -/
structure EncodesCount (r : Word) (neg : Bool) (n e : Nat) : Prop where
  isFinite : isFinite r = true
  sign : sign r = neg
  magnitude : magnitude r = n * 2 ^ e
  parity : fracField r % 2 = n % 2

/-- The three cases of `encodeCount`: subnormal, the count that went up to 2^24, and normal. -/
theorem encodeCount_encodes (neg : Bool) {n e : Nat} (hn : n ≤ 2 ^ 24) (hlow : e ≠ 0 → 2 ^ 23 ≤ n) (he : e ≤ 253)
    (hmax : e = 253 → n < 2 ^ 24) : EncodesCount (encodeCount neg n ((e : ℤ) - 149)) neg n e := by
  have hE : ((e : ℤ) - 149 + 150).toNat = e + 1 := by omega
  have key : ∀ {E F : Nat}, E < 255 → F < 2 ^ 23 → (if E = 0 then F else (2 ^ 23 + F) * 2 ^ (E - 1)) = n * 2 ^ e →
      F % 2 = n % 2 → EncodesCount (pack neg E F) neg n e := fun hE hF hm hp =>
    { isFinite := (isFinite_iff _).mpr (by rw [expField_pack neg (by omega) hF]; omega)
      sign := sign_pack neg (by omega) hF
      magnitude := by rw [magnitude_pack neg (by omega) hF, hm]
      parity := by rw [fracField_pack neg (by omega) hF, hp] }
  simp only [encodeCount, hE]
  split_ifs with h1 h2
  · obtain rfl : e = 0 := by by_contra h; have := hlow h; omega
    exact key (by omega) h1 (by simp) rfl
  · refine key (by omega) (by omega) ?_ (by omega)
    rw [if_neg (by omega), h2, Nat.add_sub_cancel, pow_succ 2 e]
    ring
  · refine key (by omega) (by omega) ?_ (by omega)
    rw [if_neg (by omega), Nat.add_sub_cancel, Nat.add_sub_cancel' (by omega)]

/-! ### RN32 -/

@[simp] theorem rn32_zero (neg : Bool) (den : Nat) : rn32 neg 0 den = zero neg := rfl

theorem rn32_overflow (neg : Bool) {num den : Nat} (hden : 0 < den) (h : (2 ^ 128 - 2 ^ 103) * den ≤ num) :
    rn32 neg num den = inf neg := by
  have h0 : num ≠ 0 := by omega
  rw [rn32, if_neg h0, if_pos h]

theorem rn32_inRange (neg : Bool) {num den : Nat} (hnum : 0 < num) (h : num < (2 ^ 128 - 2 ^ 103) * den) :
    rn32 neg num den = encodeCount neg (quantumCount num den) ((quantumExp num den : ℤ) - 149) := by
  have hc : 0 < 2 ^ min (quantumExp num den) 149 := by positivity
  have hq := quantum_eq num den
  rw [rn32, if_neg hnum.ne', if_neg (not_le.mpr h)]
  simp only [hq]
  rw [← roundHalfEven_mul_right _ _ hc, mul_assoc, mul_assoc, ← pow_add, ← pow_add, mul_comm den,
    show (-((quantumExp num den : ℤ) - 149)).toNat + min (quantumExp num den) 149 = 149 by omega,
    show ((quantumExp num den : ℤ) - 149).toNat + min (quantumExp num den) 149 = quantumExp num den by omega]
  rfl

/-- In range, RN32 encodes the rounded count of quanta (R8). -/
theorem rn32_encodes (neg : Bool) {num den : Nat} (hnum : 0 < num) (hden : 0 < den)
    (h : num < (2 ^ 128 - 2 ^ 103) * den) :
    EncodesCount (rn32 neg num den) neg (quantumCount num den) (quantumExp num den) := by
  rw [rn32_inRange neg hnum h]
  exact encodeCount_encodes neg (quantumCount_le hnum hden) (le_quantumCount hnum hden) (quantumExp_le hnum hden h)
    (quantumCount_lt_of_max hnum hden h)

/-- RN32 returns no NaN (R8). -/
theorem not_isNaN_rn32 (neg : Bool) (num : Nat) {den : Nat} (hden : 0 < den) :
    isNaN (rn32 neg num den) = false := by
  rcases Nat.eq_zero_or_pos num with rfl | hnum
  · simp
  · rcases Nat.lt_or_ge num ((2 ^ 128 - 2 ^ 103) * den) with h | h
    · exact not_isNaN_of_isFinite (rn32_encodes neg hnum hden h).isFinite
    · rw [rn32_overflow neg hden h, isNaN_inf]

/-- Against the quantum `2 ^ e`: a magnitude is a multiple of it, or lies below all the counts that a quantum above the
subnormal one is taken. -/
theorem magnitude_multiple_or_below_normal (v : Word) (e : Nat) :
    (∃ j, magnitude v = j * 2 ^ e) ∨ (e ≠ 0 ∧ magnitude v < 2 ^ 23 * 2 ^ e) := by
  cases e with
  | zero => exact .inl ⟨magnitude v, by simp⟩
  | succ e =>
    rw [pow_succ']
    have hp : 0 < 2 ^ e := by positivity
    exact (magnitude_multiple_or_below v e).imp_right fun h => ⟨by omega, by omega⟩

/-- No finite magnitude is nearer to the ratio than the rounded count of quanta, and another one as near leaves that
count even. -/
theorem quantumCount_nearest {num den : Nat} (hnum : 0 < num) (hden : 0 < den) (v : Word) :
    let here := ((quantumCount num den * 2 ^ quantumExp num den * den : Nat) : Int) - ((num * 2 ^ 149 : Nat) : Int)
    let there := ((magnitude v * den : Nat) : Int) - ((num * 2 ^ 149 : Nat) : Int)
    here.natAbs ≤ there.natAbs ∧
      (here.natAbs = there.natAbs → magnitude v ≠ quantumCount num den * 2 ^ quantumExp num den →
        quantumCount num den % 2 = 0) := by
  have hnear := quantumCount_nearest_multiple num hden
  rw [mul_assoc (quantumCount num den)]
  rcases magnitude_multiple_or_below_normal v (quantumExp num den) with ⟨j, hj⟩ | ⟨he, hlt⟩
  · rw [hj, mul_assoc]
    exact ⟨(hnear j).1, fun h hne => (hnear j).2 h fun hjn => hne (by rw [hjn])⟩
  · have h23 := (hnear (2 ^ 23)).1
    have hle := quanta_le_ratio hnum hden he
    have hlt' := Nat.mul_lt_mul_of_pos_right hlt hden
    rw [mul_assoc] at hlt'
    omega

end Sys2Proof.Machine.F32

namespace Sys2Proof.Proofs

open Sys2Proof.Machine

/-- Settles O32: in range RN32 encodes the nearest count of quanta, with ties to even, and every finite magnitude is a
multiple of the quantum or lies below all the counts of it. -/
theorem roundingIsNearestEven : Obligations.RoundingIsNearestEven := by
  intro neg num den hden
  refine ⟨?_, F32.rn32_overflow neg hden, fun hnum h => ?_⟩
  · rintro rfl
    exact F32.rn32_zero neg den
  · have hr := F32.rn32_encodes neg hnum hden h
    refine ⟨hr.isFinite, hr.sign, fun v _ => ?_⟩
    rw [hr.magnitude, hr.parity]
    exact F32.quantumCount_nearest hnum hden v

end Sys2Proof.Proofs
end

section
/-!
Sums and products (00_scope R9 to R11): one rule for each pair of classes of the operands.
-/

namespace Sys2Proof.Machine.F32

/-! ### Sums (R9) -/

theorem fadd_of_isNaN {a b : Word} (h : isNaN a = true ∨ isNaN b = true) : fadd a b = cnan := by
  simp [fadd, h]

theorem fadd_of_value_add_eq_zero {a b : Word} (ha : isFinite a = true) (hb : isFinite b = true)
    (h : value a + value b = 0) :
    fadd a b = if a = 0x80000000 ∧ b = 0x80000000 then 0x80000000 else 0x00000000 := by
  simp [fadd, not_isNaN_of_isFinite, not_isInf_of_isFinite, ha, hb, h]

theorem fadd_of_value_add_ne_zero {a b : Word} (ha : isFinite a = true) (hb : isFinite b = true)
    (h : value a + value b ≠ 0) :
    fadd a b = rn32 (decide (value a + value b < 0)) (value a + value b).natAbs (2 ^ 149) := by
  simp [fadd, not_isNaN_of_isFinite, not_isInf_of_isFinite, ha, hb, h]

theorem fadd_inf_finite {a b : Word} (ha : isInf a = true) (hb : isFinite b = true) : fadd a b = a := by
  simp [fadd, not_isNaN_of_isFinite, not_isNaN_of_isInf, not_isInf_of_isFinite, ha, hb]

theorem fadd_finite_inf {a b : Word} (ha : isFinite a = true) (hb : isInf b = true) : fadd a b = b := by
  simp [fadd, not_isNaN_of_isFinite, not_isNaN_of_isInf, not_isInf_of_isFinite, ha, hb]

theorem fadd_inf_of_sign_eq {a b : Word} (ha : isInf a = true) (hb : isInf b = true) (h : sign a = sign b) :
    fadd a b = a := by
  simp [fadd, not_isNaN_of_isInf, ha, hb, h]

theorem fadd_inf_of_sign_ne {a b : Word} (ha : isInf a = true) (hb : isInf b = true) (h : sign a ≠ sign b) :
    fadd a b = cnan := by
  simp [fadd, not_isNaN_of_isInf, ha, hb, h]

theorem fadd_eq_cnan_or_not_isNaN (a b : Word) : fadd a b = cnan ∨ isNaN (fadd a b) = false := by
  simp only [fadd]
  split_ifs with _ _ ha hb
  · exact .inl rfl
  · exact .inl rfl
  · exact .inr (not_isNaN_of_isInf ha)
  · exact .inr (not_isNaN_of_isInf hb)
  · exact .inr rfl
  · exact .inr rfl
  · exact .inr (not_isNaN_rn32 _ _ (by positivity))

theorem fadd_eq_cnan_of_isNaN {a b : Word} (h : isNaN (fadd a b) = true) : fadd a b = cnan :=
  (fadd_eq_cnan_or_not_isNaN a b).resolve_right (by simp [h])

/-! ### Differences (R10) -/

theorem fsub_of_isNaN {a b : Word} (h : isNaN a = true ∨ isNaN b = true) : fsub a b = cnan :=
  fadd_of_isNaN (by rwa [isNaN_fneg])

theorem fsub_inf_of_sign_eq {a b : Word} (ha : isInf a = true) (hb : isInf b = true) (h : sign a = sign b) :
    fsub a b = cnan :=
  fadd_inf_of_sign_ne ha (by rwa [isInf_fneg]) (by simp [h])

/-- The two operands of the exact zero `x - x` differ in bit 31, so they are not both -0. -/
theorem fsub_self {a : Word} (ha : isFinite a = true) : fsub a a = 0x00000000 := by
  rw [fsub, fadd_of_value_add_eq_zero ha (by rwa [isFinite_fneg]) (by simp), if_neg]
  rintro ⟨h, h'⟩
  have hs := sign_fneg a
  rw [h', h] at hs
  exact absurd hs (by decide)

/-! ### Products (R11) -/

theorem fmul_of_isNaN {a b : Word} (h : isNaN a = true ∨ isNaN b = true) : fmul a b = cnan := by
  simp [fmul, h]

theorem fmul_of_isFinite {a b : Word} (ha : isFinite a = true) (hb : isFinite b = true) :
    fmul a b = rn32 (sign a != sign b) (value a * value b).natAbs (2 ^ 298) := by
  rw [fmul, if_neg, if_neg, if_neg, Int.natAbs_mul, natAbs_value, natAbs_value] <;>
    simp [not_isNaN_of_isFinite, not_isInf_of_isFinite, ha, hb]

theorem fmul_inf_zero {a b : Word} (ha : isInf a = true) (hb : isZero b = true) : fmul a b = cnan := by
  simp [fmul, ha, hb]

theorem fmul_zero_inf {a b : Word} (ha : isZero a = true) (hb : isInf b = true) : fmul a b = cnan := by
  simp [fmul, ha, hb]

theorem fmul_inf_left {a b : Word} (ha : isInf a = true) (hb : isNaN b = false) (h0 : isZero b = false) :
    fmul a b = inf (sign a != sign b) := by
  simp [fmul, not_isNaN_of_isInf, not_isZero_of_isInf, ha, hb, h0]

theorem fmul_inf_right {a b : Word} (ha : isNaN a = false) (h0 : isZero a = false) (hb : isInf b = true) :
    fmul a b = inf (sign a != sign b) := by
  simp [fmul, not_isNaN_of_isInf, not_isZero_of_isInf, ha, hb, h0]

theorem inf_bne (s t : Bool) : inf (s != t) = if s = t then 0x7F800000 else 0xFF800000 := by
  cases s <;> cases t <;> rfl

theorem fmul_eq_cnan_or_not_isNaN (a b : Word) : fmul a b = cnan ∨ isNaN (fmul a b) = false := by
  unfold fmul
  split_ifs
  · exact .inl rfl
  · exact .inl rfl
  · exact .inr (isNaN_inf _)
  · exact .inr (not_isNaN_rn32 _ _ (by positivity))

theorem fmul_eq_cnan_of_isNaN {a b : Word} (h : isNaN (fmul a b) = true) : fmul a b = cnan :=
  (fmul_eq_cnan_or_not_isNaN a b).resolve_right (by simp [h])

end Sys2Proof.Machine.F32

namespace Sys2Proof.Proofs

open Sys2Proof.Machine Sys2Proof.Machine.F32

/-- Settles O33: each clause is the rule of the operands' classes. -/
theorem sumsAndProductsRoundOnce : Obligations.SumsAndProductsRoundOnce := by
  intro a b
  refine ⟨fun ha hb => ?finite, fun ha => ⟨fun hb => ?infFinite, ?infSelf, fun hb hne => ?infInf, fun hb => ?infZero,
    fun hb h0 => ?infNonzero⟩, fun h => ?nan⟩
  case finite => exact ⟨fadd_of_value_add_eq_zero ha hb, fadd_of_value_add_ne_zero ha hb, fmul_of_isFinite ha hb⟩
  case infFinite => exact ⟨fadd_inf_finite ha hb, fadd_finite_inf hb ha⟩
  case infSelf => exact fadd_inf_of_sign_eq ha ha rfl
  case infInf => exact fadd_inf_of_sign_ne ha hb (sign_ne_of_isInf_of_ne ha hb hne)
  case infZero => exact ⟨fmul_inf_zero ha hb, fmul_zero_inf hb ha⟩
  case infNonzero =>
    have hab := fmul_inf_left ha hb h0
    refine ⟨hab.trans (inf_bne _ _), ?_⟩
    rw [hab, fmul_inf_right hb h0 ha, bne_comm]
  case nan => exact ⟨fadd_of_isNaN h, fmul_of_isNaN h⟩

/-- Settles O34: a sum or product that is not the canonical NaN is an infinity, a zero or a rounded value. -/
theorem nanResultsAreCanonical : Obligations.NanResultsAreCanonical := fun _ _ =>
  ⟨fun h => ⟨fadd_of_isNaN h, fsub_of_isNaN h, fmul_of_isNaN h⟩, fadd_eq_cnan_of_isNaN, fadd_eq_cnan_of_isNaN,
    fmul_eq_cnan_of_isNaN⟩

/-- Settles O35: negation keeps the class of an operand and turns its sign. -/
theorem subtractionCorners : Obligations.SubtractionCorners := fun _ _ =>
  ⟨rfl, fsub_of_isNaN, fsub_inf_of_sign_eq, fsub_self⟩

end Sys2Proof.Proofs
end

section
/-!
The words a command writes (20_memory R42): every effect of 40_command R59, and the scrambling of 70_reset R113, is a
sequence of writes of sample words below the command's length, so what every such write keeps holds afterwards.
-/

namespace Sys2Proof.Machine

/-- `P` survives the write of any sample word below index `N`. -/
def KeptBelow (N : Nat) (P : Samples → Prop) : Prop := ∀ x c i w, i < N → P x → P (x.set c i w)

/-- An empty carry stays empty. -/
theorem carry_zero_zero (fuel : Nat) : carry fuel 0 0 = (0, 0) := by
  induction fuel with
  | zero => rfl
  | succ fuel ih => simpa [carry] using ih

/-- The carry loop from `k = 2^j` leaves a cursor and a bit whose sum, the next cursor, has at most j + 1 digits
(41_permutation R63). -/
theorem carry_sum_lt {fuel nd : Nat} (j : Nat) (hf : j < fuel) (hnd : nd < 2 ^ (j + 1)) :
    (carry fuel nd (2 ^ j)).1 + (carry fuel nd (2 ^ j)).2 < 2 ^ (j + 1) := by
  induction j generalizing fuel nd with
  | zero =>
    obtain ⟨fuel, rfl⟩ : ∃ n, fuel = n + 1 := Nat.exists_eq_succ_of_ne_zero (by omega)
    obtain rfl | rfl : nd = 0 ∨ nd = 1 := by omega
    · simp [carry]
    · simp [carry, carry_zero_zero]
  | succ j ih =>
    obtain ⟨fuel, rfl⟩ : ∃ n, fuel = n + 1 := Nat.exists_eq_succ_of_ne_zero (by omega)
    rw [pow_succ 2 (j + 1)] at hnd ⊢
    unfold carry
    split_ifs with h
    · rw [show 2 ^ (j + 1) / 2 = 2 ^ j by rw [pow_succ]; omega]
      have := ih (show j < fuel by omega) (show nd - 2 ^ (j + 1) < 2 ^ (j + 1) by omega)
      omega
    · dsimp only
      omega

/-- The partner of a butterfly lies within the transform: the index is in the lower half of its group of `2^s`, and the
length is a multiple of that (42_butterfly R74). -/
theorem partner_lt {m s k : Nat} (hs : s ≤ m) (hk : k < 2 ^ m) (hr : k % 2 ^ s < 2 ^ s / 2) :
    k + 2 ^ s / 2 < 2 ^ m := by
  obtain ⟨d, rfl⟩ := Nat.exists_eq_add_of_le hs
  rw [pow_add] at hk ⊢
  have hq : k / 2 ^ s < 2 ^ d := Nat.div_lt_of_lt_mul hk
  have h1 := Nat.mul_le_mul_left (2 ^ s) hq
  have h2 := Nat.div_add_mod k (2 ^ s)
  rw [Nat.succ_eq_add_one, mul_add_one] at h1
  omega

namespace KeptBelow

section
variable {N : Nat} {P : Samples → Prop} {x : Samples} (hP : KeptBelow N P) (hx : P x)
include hP hx

theorem setPoint {i : Nat} (hi : i < N) (p : Word × Word) : P (x.setPoint i p) :=
  hP _ _ _ _ hi (hP _ _ _ _ hi hx)

theorem swapPoints {i j : Nat} (hi : i < N) (hj : j < N) : P (swapPoints x i j) :=
  hP.setPoint (hP.setPoint hx hi _) hj _

theorem bfly {k ip : Nat} (hk : k < N) (hip : ip < N) (w : Word × Word) : P (bfly x k ip w) :=
  hP.setPoint (hP.setPoint hx hip _) hk _

theorem conjBody : P (conjBody N x) :=
  List.foldlRecOn _ _ hx fun _ hy _ hi => hP _ _ _ _ (List.mem_range.mp hi) hy

theorem scaleBody (m : Nat) : P (scaleBody N m x) :=
  List.foldlRecOn _ _ hx fun _ hy _ hi => hP.setPoint hy (List.mem_range.mp hi) _

theorem scramblePoints (n : Nat) : P (scramblePoints N n x) :=
  List.foldlRecOn _ _ hx fun _ hy _ hi => hP.setPoint hy (List.mem_range.mp hi) _

end

section
variable {m : Nat} {P : Samples → Prop} {x : Samples} (hP : KeptBelow (2 ^ m) P) (hx : P x)
include hP hx

/-- The cursor stays below the length, so both points of every swap do. -/
theorem bitRevBody (hm : m ≤ 16) : P (bitRevBody (2 ^ m) x) := by
  have hstart : 2 ^ m / 2 < 2 ^ m := Nat.div_lt_self (by positivity) one_lt_two
  refine (List.foldlRecOn (motive := fun st : Nat × Samples => st.1 < 2 ^ m ∧ P st.2) _ _ ⟨hstart, hx⟩
    fun st hst i hi => ?_).2
  obtain ⟨hnd, hy⟩ := hst
  have hi2 : i + 2 ≤ 2 ^ m := by
    have := List.mem_range'_1.mp hi
    omega
  obtain ⟨j, rfl⟩ : ∃ j, m = j + 1 := Nat.exists_eq_succ_of_ne_zero (by rintro rfl; omega)
  constructor
  · have hhalf : 2 ^ (j + 1) / 2 = 2 ^ j := by rw [pow_succ]; omega
    simpa only [bitRevStep, hhalf] using carry_sum_lt j (show j < 32 by omega) hnd
  · simp only [bitRevStep]
    split_ifs
    · exact hP.swapPoints hy (by omega) hnd
    · exact hy

theorem subBandLoop {s k : Nat} (hs : s ≤ m) (hr : k % 2 ^ s < 2 ^ s / 2) (w : Word × Word) (fuel : Nat) :
    P (subBandLoop (2 ^ m) (2 ^ s) (2 ^ s / 2) w fuel k x) := by
  induction fuel generalizing k x with
  | zero => exact hx
  | succ fuel ih =>
    unfold Machine.subBandLoop
    split_ifs with hk
    · exact ih (hP.bfly hx (by omega) (partner_lt hs (by omega) hr) w) (by rwa [Nat.add_mod_right])
    · exact hx

theorem stageBody {s : Nat} (hs : s ≤ m) : P (stageBody (2 ^ m) s x) := by
  refine List.foldlRecOn (motive := fun st : (Word × Word) × Samples => P st.2) _ _ hx fun st hy j hj => ?_
  have hlt : j - 1 < 2 ^ s / 2 := by
    have := List.mem_range'_1.mp hj
    omega
  exact hP.subBandLoop hy hs (by rwa [Nat.mod_eq_of_lt (by omega)]) _ _

theorem stagesBody : P (stagesBody (2 ^ m) m x) :=
  List.foldlRecOn _ _ hx fun _ hy s hs => hP.stageBody hy (by have := List.mem_range'_1.mp hs; omega)

theorem fftBody (hm : m ≤ 16) : P (fftBody (2 ^ m) m x) := hP.stagesBody (hP.bitRevBody hx hm)

theorem ifftBody (hm : m ≤ 16) : P (ifftBody (2 ^ m) m x) :=
  hP.conjBody (hP.scaleBody (hP.stagesBody (hP.bitRevBody (hP.conjBody hx) hm)) m)

end

/-- The effect of a command writes only words below the latched length (40_command R59, 20_memory R42). -/
theorem effect {s : State} {P : Samples → Prop} (hP : KeptBelow s.ln.toNat P) (hx : P s.samples)
    (hl : latchesConsistent s = true) : P (effect s) := by
  obtain ⟨hop, hop', hln, hlm, hls⟩ := (latchesConsistent_iff s).mp hl
  have hm : s.lm.toNat ≤ 16 := by omega
  rw [hln] at hP
  unfold Machine.effect
  rw [hln]
  split
  case h_1 => exact hP.fftBody hx hm
  case h_2 => exact hP.ifftBody hx hm
  case h_3 => exact hP.bitRevBody hx hm
  case h_4 => exact hP.stagesBody hx
  case h_5 h5 => exact hP.stageBody hx (hls (BitVec.eq_of_toNat_eq h5)).2
  case h_6 => exact hP.conjBody hx
  case h_7 => exact hP.scaleBody hx _
  case h_8 => exact hx

end KeptBelow

end Sys2Proof.Machine
end

section
/-!
The registers at the port (10_state R18, 20_memory R36), and everything a host access, a command and a step can do, each
as one list of outcomes.
-/

namespace Sys2Proof.Machine

open Claims

/-! ### Register accesses -/

theorem locate_regOffset (s : State) (r : Reg) : locate s (BitVec.ofNat 22 (regOffset r)) .word = some (.reg r) := by
  cases r <;> rfl

theorem access_read_reg (r : Reg) (s : State) :
    access (wordRead (BitVec.ofNat 22 (regOffset r))) s = .next { s with rdata := regRead r s } := by
  simp [access, wordRead, hostRead, memRead, locate_regOffset]

theorem access_write_reg (r : Reg) (v : Word) (s : State) :
    access (wordWrite (BitVec.ofNat 22 (regOffset r)) v) s = regWrite r v s := by
  simp [access, wordWrite, memWrite, locate_regOffset]

theorem toNat_append_eq_add {m n : Nat} (x : BitVec m) (y : BitVec n) :
    (x ++ y).toNat = x.toNat * 2 ^ n + y.toNat := by
  rw [BitVec.toNat_append, ← Nat.shiftLeft_add_eq_or_of_lt y.isLt, Nat.shiftLeft_eq]

/-- The bits of STATUS, added up by their weights (10_state R20). -/
theorem statusWord_eq (f : Status) :
    statusWord f = BitVec.ofNat 32 (f.buserr.toNat * 512 + f.haz.toNat * 256 + f.err.toNat * 16 + f.done.toNat * 2 +
      f.busy.toNat) := by
  apply BitVec.eq_of_toNat_eq
  simp only [statusWord, toNat_append_eq_add, BitVec.toNat_setWidth, BitVec.toNat_ofBool, BitVec.toNat_ofNat]
  omega

theorem writeOneToClear_eq (w : Word) (f : Status) :
    writeOneToClear w f =
      { busy := f.busy, done := f.done && !w.getLsbD 1, err := f.err, haz := f.haz && !w.getLsbD 8,
        buserr := f.buserr && !w.getLsbD 9 } := by
  unfold writeOneToClear
  cases w.getLsbD 1 <;> cases w.getLsbD 8 <;> cases w.getLsbD 9 <;> simp

/-! ### Outcomes -/

/-- The state of `s` after a submission while idle (40_command R56): NOP answers as a rejection without an error does,
and an accepted command has passed its checks. -/
inductive SubmitOutcome (s : State) : State → Prop where
  | rejected (e : ErrCode) : SubmitOutcome s (reject e s)
  | accepted (i : Instr) (hi : i ≠ .nop) (he : commandError i s = .none) :
      SubmitOutcome s (accept (latchOf i).1 (latchOf i).2 s)

theorem exec_idle_outcome {i : Instr} {s t : State} (hb : s.status.busy = false) (h : exec i s = .next t) :
    SubmitOutcome s t := by
  by_cases hi : i = .nop
  · subst hi
    have ht : execNop s = .next t := h
    obtain rfl : reject .none s = t := by simpa [execNop, hb, reject] using ht
    exact .rejected .none
  · rw [exec_eq_submit hi] at h
    obtain rfl := Host.Outcome.next.inj h
    rcases submit_cases (commandError i s) (latchOf i).1 (latchOf i).2 s with ⟨hb', -⟩ | ⟨-, he, hs⟩ | ⟨-, -, hs⟩
    · simp [hb] at hb'
    · exact hs ▸ .accepted i hi he
    · exact hs ▸ .rejected _

/-- The state of `s` after one host access (20_memory R34 to R39, 60_exceptions R98, R99). -/
inductive AccessOutcome (s : State) : State → Prop where
  | read (off : BitVec 22) (size : Size) : AccessOutcome s (hostRead off size s)
  | illegalWrite : AccessOutcome s (raiseBuserr s)
  | refusedWrite (hb : s.status.busy = true) : AccessOutcome s (raiseHaz s)
  | submit {t : State} (hb : s.status.busy = false) (h : SubmitOutcome s t) : AccessOutcome s t
  | clearFlags (w : Word) : AccessOutcome s { s with status := writeOneToClear w s.status }
  | setReLen (hb : s.status.busy = false) (v : Word) : AccessOutcome s { s with reLen := v }
  | setImLen (hb : s.status.busy = false) (v : Word) : AccessOutcome s { s with imLen := v }
  | setIrqEn (en : Bool) : AccessOutcome s { s with irqEn := en }
  | capIgnored : AccessOutcome s s
  | setSample (hb : s.status.busy = false) (c : Chan) (i : Nat) (hi : i < nMax s) (v : Word) :
      AccessOutcome s { s with samples := s.samples.set c i v }

theorem writeCmd_outcome {v : Word} {s t : State} (h : writeCmd v s = .next t) : AccessOutcome s t := by
  rcases writeCmd_cases v s with ⟨hb, hw⟩ | ⟨hb, -, hw⟩ | ⟨hb, i, -, hw⟩
  · obtain rfl := Host.Outcome.next.inj (hw.symm.trans h)
    exact .refusedWrite hb
  · obtain rfl := Host.Outcome.next.inj (hw.symm.trans h)
    exact .submit hb (.rejected _)
  · exact .submit hb (exec_idle_outcome hb (hw.symm.trans h))

theorem regWrite_outcome {r : Reg} {v : Word} {s t : State} (h : regWrite r v s = .next t) : AccessOutcome s t := by
  cases r with
  | cmd => exact writeCmd_outcome h
  | status => exact Host.Outcome.next.inj h ▸ .clearFlags v
  | reLen =>
    obtain rfl := Host.Outcome.next.inj h
    split
    next hb => exact .refusedWrite hb
    next hb => exact .setReLen (Bool.eq_false_iff.mpr hb) v
  | imLen =>
    obtain rfl := Host.Outcome.next.inj h
    split
    next hb => exact .refusedWrite hb
    next hb => exact .setImLen (Bool.eq_false_iff.mpr hb) v
  | irqEn => exact Host.Outcome.next.inj h ▸ .setIrqEn _
  | cap => exact Host.Outcome.next.inj h ▸ .capIgnored

/-- A sample that an access reaches is one of the build's (20_memory R33). -/
theorem lt_nMax_of_locate {s : State} {off : BitVec 22} {size : Size} {c : Chan} {i : Nat}
    (h : locate s off size = some (.sample c i)) : i < nMax s := by
  rcases locate_cases s off size with h' | ⟨-, r, h', -⟩ | ⟨-, c', i', h', hi, -⟩
  · simp [h] at h'
  · simp [h] at h'
  · obtain ⟨-, rfl⟩ : c = c' ∧ i = i' := by simpa [h] using h'
    exact hi

theorem access_outcome {a : Access} {s t : State} (h : access a s = .next t) : AccessOutcome s t := by
  obtain ⟨dir, off, size, v⟩ := a
  cases dir with
  | read => exact Host.Outcome.next.inj h ▸ .read off size
  | write =>
    have h : memWrite off size v s = .next t := h
    rcases memWrite_cases off size v s with ⟨-, hw⟩ | ⟨r, -, hw⟩ | ⟨c, i, -, hb, hw⟩ | ⟨c, i, hloc, hb, hw⟩
    · exact Host.Outcome.next.inj (hw.symm.trans h) ▸ .illegalWrite
    · exact regWrite_outcome (hw.symm.trans h)
    · exact Host.Outcome.next.inj (hw.symm.trans h) ▸ .refusedWrite hb
    · exact Host.Outcome.next.inj (hw.symm.trans h) ▸ .setSample hb c i (lt_nMax_of_locate hloc) v

/-- A read leaves the block as it is or sets one sticky flag (20_memory R34, R39). -/
theorem hostRead_outcome (off : BitVec 22) (size : Size) (s : State) :
    ∃ v, hostRead off size s = { s with rdata := v } ∨ hostRead off size s = { raiseBuserr s with rdata := v } ∨
      hostRead off size s = { raiseHaz s with rdata := v } := by
  refine ⟨(memRead off size s).1, ?_⟩
  unfold hostRead
  rcases memRead_cases off size s with ⟨-, h⟩ | ⟨r, -, h⟩ | ⟨c, i, -, -, h⟩ | ⟨c, i, -, -, h⟩
  · exact .inr (.inl (by rw [h]))
  · exact .inl (by rw [h])
  · exact .inr (.inr (by rw [h]))
  · exact .inl (by rw [h])

end Sys2Proof.Machine
end

section
/-!
The invariant of the block (10_state R20, R28, 20_memory R33): each outcome of a step keeps it.
-/

namespace Sys2Proof.Machine

open Claims

/-! ### The checks of a submission -/

/-- The length checks of R92 to R94 pass exactly on equal lengths that are a power of two within N_MAX. -/
theorem lengthError_eq_none_iff (s : State) : lengthError s = .none ↔ ∃ m, LengthsAre s m := by
  have hpow : ∀ m, s.reLen.toNat = 2 ^ m → (s.reLen.toNat > nMax s ↔ ¬m ≤ s.log2NMax.val) := fun m hm => by
    rw [hm, nMax, gt_iff_lt, Nat.pow_lt_pow_iff_right one_lt_two, not_le]
  constructor
  · intro h
    unfold lengthError at h
    split_ifs at h with heq h2 hbig
    obtain ⟨m, hm⟩ := (isPow2_iff_exists_two_pow _).mp (Bool.not_eq_false _ ▸ h2)
    exact ⟨m, not_not.mp heq, hm, not_not.mp ((hpow m hm).not.mp hbig)⟩
  · rintro ⟨m, heq, hm, hle⟩
    have h2 := (isPow2_iff_exists_two_pow _).mpr ⟨m, hm⟩
    rw [lengthError, if_neg (not_not.mpr heq), if_neg (by simp [h2]), if_neg ((hpow m hm).not.mpr (not_not.mpr hle))]

/-- A command that passes its checks has good lengths, and STAGE an index within them (60_exceptions R92 to R96). -/
theorem lengthsAre_of_commandError {i : Instr} {s : State} (hi : i ≠ .nop) (he : commandError i s = .none) :
    ∃ m, LengthsAre s m ∧ ∀ k, i = .stage k → 1 ≤ k ∧ k ≤ m := by
  have hlen : lengthError s = .none := by
    cases i with
    | nop => exact absurd rfl hi
    | stage k =>
      simp only [commandError, stageError] at he
      split at he
      next h => exact h
      next => exact he
    | _ => exact he
  obtain ⟨m, hm⟩ := (lengthError_eq_none_iff s).mp hlen
  refine ⟨m, hm, ?_⟩
  rintro k rfl
  obtain ⟨-, hlog, -⟩ := hm
  simp only [commandError, stageError, hlen, log2_of_toNat hlog, ite_eq_right_iff, reduceCtorEq, imp_false] at he
  omega

theorem latchOf_opcode_range {i : Instr} (hi : i ≠ .nop) : 1 ≤ (latchOf i).1.toNat ∧ (latchOf i).1.toNat ≤ 7 := by
  cases i with
  | nop => exact absurd rfl hi
  | _ => simp [latchOf]

theorem eq_stage_of_latchOf_opcode {i : Instr} (h : (latchOf i).1 = 0x5) : ∃ k, i = .stage k := by
  cases i with
  | stage k => exact ⟨k, rfl⟩
  | _ => simp [latchOf] at h

/-- An acceptance leaves consistent latches (10_state R28, 40_command R56). -/
theorem latchesConsistent_accept {i : Instr} {s : State} (hi : i ≠ .nop) (he : commandError i s = .none) :
    latchesConsistent (accept (latchOf i).1 (latchOf i).2 s) = true := by
  obtain ⟨m, ⟨-, hlog, hle⟩, hstage⟩ := lengthsAre_of_commandError hi he
  have hm : (BitVec.ofNat 5 m).toNat = m := by simp; omega
  refine (latchesConsistent_iff _).mpr ?_
  simp only [accept_lop, accept_ln, accept_lm, accept_ls, accept_log2NMax, log2_of_toNat hlog, hm]
  obtain ⟨hop, hop'⟩ := latchOf_opcode_range hi
  refine ⟨hop, hop', hlog, hle, fun h5 => ?_⟩
  obtain ⟨k, rfl⟩ := eq_stage_of_latchOf_opcode h5
  have hk := hstage k rfl
  have hks : (BitVec.ofNat 5 k).toNat = k := by simp; omega
  simpa [latchOf, hks] using hk

theorem errNumber_le (e : ErrCode) : (errNumber e).toNat ≤ 5 := by cases e <;> decide

/-! ### The windows -/

/-- The bytes a channel lists stay in its window when a sample word below N_MAX is written (20_memory R33). -/
theorem inWindow_keptBelow {n N : Nat} (hN : N ≤ n) (c : Chan) :
    KeptBelow N (fun x => ∀ cell ∈ x.chan c, chanBase c ≤ cell.1 ∧ cell.1 < chanBase c + 4 * n) := by
  intro x c' i w hi hx cell hcell
  rcases Samples.mem_set hcell with ⟨rfl, hlow, hhigh⟩ | hold
  · unfold sampleOffset at hlow hhigh
    omega
  · exact hx cell hold

namespace BlockInv

variable {s t : State}

theorem samples_wf (h : BlockInv s) : s.samples.wf := ⟨h.reWf, h.imWf⟩

theorem inWindow (h : BlockInv s) (c : Chan) : InWindow s c := by
  cases c
  · exact h.reWindow
  · exact h.imWindow

/-- An idle block owes nothing but the memories and a legal error code. -/
theorem of_idle (hb : s.status.busy = false) (hwf : s.samples.wf) (hwin : ∀ c, InWindow s c)
    (he : s.status.err.toNat ≤ 5) : BlockInv s :=
  { reWf := hwf.1, imWf := hwf.2, reWindow := hwin .re, imWindow := hwin .im, errLegal := he
    busyClear := by simp [hb], latches := by simp [hb], lengths := by simp [hb] }

/-- While a command runs the length is within N_MAX. -/
theorem ln_le_nMax (h : BlockInv s) (hb : s.status.busy = true) : s.ln.toNat ≤ nMax s := by
  obtain ⟨-, -, hln, hlm, -⟩ := (latchesConsistent_iff s).mp (h.latches hb)
  rw [hln, nMax]
  exact Nat.pow_le_pow_right two_pos hlm

/-! ### The host -/

theorem hostRead (h : BlockInv s) (off : BitVec 22) (size : Size) : BlockInv (hostRead off size s) := by
  obtain ⟨v, hr | hr | hr⟩ := hostRead_outcome off size s <;> rw [hr] <;> exact { h with }

theorem clearFlags (h : BlockInv s) (w : Word) : BlockInv { s with status := writeOneToClear w s.status } :=
  { h with
    busyClear := fun hb => by
      obtain ⟨hd, he⟩ := h.busyClear hb
      exact ⟨by simp [writeOneToClear, hd], he⟩ }

theorem setSample (h : BlockInv s) (hb : s.status.busy = false) (c : Chan) {i : Nat} (hi : i < nMax s) (v : Word) :
    BlockInv { s with samples := s.samples.set c i v } :=
  of_idle hb (Samples.set_wf h.samples_wf c i v)
    (fun c' => inWindow_keptBelow le_rfl c' _ _ _ _ hi (h.inWindow c')) h.errLegal

theorem of_submitOutcome (h : BlockInv s) (hb : s.status.busy = false) (ht : SubmitOutcome s t) : BlockInv t := by
  cases ht with
  | rejected e => exact of_idle hb h.samples_wf h.inWindow (errNumber_le e)
  | accepted i hi he =>
    obtain ⟨m, ⟨hlen, -, -⟩, -⟩ := lengthsAre_of_commandError hi he
    exact { h with
      busyClear := fun _ => ⟨rfl, rfl⟩
      errLegal := by simp
      latches := fun _ => latchesConsistent_accept hi he
      lengths := fun _ => ⟨rfl, hlen⟩ }

theorem of_accessOutcome (h : BlockInv s) (ht : AccessOutcome s t) : BlockInv t := by
  cases ht with
  | read off size => exact h.hostRead off size
  | illegalWrite => exact { h with }
  | refusedWrite hb => exact { h with }
  | submit hb ht => exact h.of_submitOutcome hb ht
  | clearFlags w => exact h.clearFlags w
  | setReLen hb v => exact of_idle hb h.samples_wf h.inWindow h.errLegal
  | setImLen hb v => exact of_idle hb h.samples_wf h.inWindow h.errLegal
  | setIrqEn en => exact { h with }
  | capIgnored => exact h
  | setSample hb c i hi v => exact h.setSample hb c hi v

theorem hostStep (h : BlockInv s) (ht : hostStep s = .next t) : BlockInv t := by
  rcases hostStep_cases s with ⟨-, hs⟩ | ⟨a, rest, -, hs⟩ | ⟨off, mask, value, rest, u, -, hu, hs⟩
  · exact Host.Outcome.next.inj (hs.symm.trans ht) ▸ h
  · have h' : BlockInv { s with script := rest } := { h with }
    exact h'.of_accessOutcome (access_outcome (hs.symm.trans ht))
  · have h' : BlockInv { s with script := rest } := { h with }
    have hu' : BlockInv u := hu ▸ h'.hostRead off .word
    obtain rfl := Host.Outcome.next.inj (hs.symm.trans ht)
    split
    · exact hu'
    · exact { hu' with }

/-! ### The engine and the reset input -/

theorem engineInternal (h : BlockInv s) (ht : engineInternal s = .next t) : BlockInv t := by
  obtain rfl := Host.Outcome.next.inj ht
  split
  · exact { h with }
  · exact h

theorem engineCompletes (h : BlockInv s) (ht : engineCompletes s = .next t) : BlockInv t := by
  rcases engineCompletes_cases s with ⟨-, hs⟩ | ⟨hb, hl, hs⟩ | ⟨-, -, hs⟩
  · exact Host.Outcome.next.inj (hs.symm.trans ht) ▸ h
  · obtain rfl := Host.Outcome.next.inj (hs.symm.trans ht)
    exact of_idle rfl (effect_wf h.samples_wf)
      (fun c => (inWindow_keptBelow (h.ln_le_nMax hb) c).effect (h.inWindow c) hl) h.errLegal
  · simp [hs] at ht

theorem abandonCommand (h : BlockInv s) : BlockInv (abandonCommand s) := by
  unfold Machine.abandonCommand
  split
  next hb =>
    have hwf := scramblePoints_wf h.samples_wf s.ln.toNat s.fresh
    have hwin := fun c => (inWindow_keptBelow (h.ln_le_nMax hb) c).scramblePoints (h.inWindow c) s.fresh
    exact { h with reWf := hwf.1, imWf := hwf.2, reWindow := hwin .re, imWindow := hwin .im }
  next => exact h

theorem resetBody (h : BlockInv s) : BlockInv (resetBody s) :=
  of_idle rfl h.abandonCommand.samples_wf h.abandonCommand.inWindow (Nat.zero_le 5)

theorem step (h : BlockInv s) (ht : step s = .next t) : BlockInv t := by
  have h' : BlockInv (dropTurn s) := { h with }
  rcases step_cases s with ⟨-, hs⟩ | ⟨-, hs⟩ | ⟨-, hs⟩ | ⟨-, hs⟩
  · exact h'.hostStep (hs.symm.trans ht)
  · exact h'.engineInternal (hs.symm.trans ht)
  · exact h'.engineCompletes (hs.symm.trans ht)
  · exact Host.Outcome.next.inj (hs.symm.trans ht) ▸ h'.resetBody

end BlockInv

/-! ### The list of turns -/

theorem dropTurn_eq_self {s : State} (h : s.turns = []) : dropTurn s = s := by
  have htail : s.turns.tail = s.turns := by rw [h]; rfl
  rw [dropTurn, htail]

/-! ### The build parameter (10_state R24) -/

@[simp] theorem hostRead_log2NMax (off : BitVec 22) (size : Size) (s : State) :
    (hostRead off size s).log2NMax = s.log2NMax := by
  obtain ⟨v, h | h | h⟩ := hostRead_outcome off size s <;> rw [h] <;> rfl

theorem AccessOutcome.log2NMax_eq {s t : State} (h : AccessOutcome s t) : t.log2NMax = s.log2NMax := by
  cases h with
  | read off size => exact hostRead_log2NMax off size s
  | submit hb h => cases h <;> rfl
  | _ => rfl

theorem hostStep_log2NMax {s t : State} (h : hostStep s = .next t) : t.log2NMax = s.log2NMax := by
  rcases hostStep_cases s with ⟨-, hs⟩ | ⟨a, rest, -, hs⟩ | ⟨off, mask, value, rest, u, -, rfl, hs⟩
  · exact Host.Outcome.next.inj (hs.symm.trans h) ▸ rfl
  · exact (access_outcome (hs.symm.trans h)).log2NMax_eq
  · obtain rfl := Host.Outcome.next.inj (hs.symm.trans h)
    split <;> simp

theorem engineCompletes_log2NMax {s t : State} (h : engineCompletes s = .next t) : t.log2NMax = s.log2NMax := by
  rcases engineCompletes_cases s with ⟨-, hs⟩ | ⟨-, -, hs⟩ | ⟨-, -, hs⟩
  · exact Host.Outcome.next.inj (hs.symm.trans h) ▸ rfl
  · exact Host.Outcome.next.inj (hs.symm.trans h) ▸ rfl
  · simp [hs] at h

theorem engineInternal_log2NMax {s t : State} (h : engineInternal s = .next t) : t.log2NMax = s.log2NMax := by
  obtain rfl := Host.Outcome.next.inj h
  split <;> rfl

theorem step_log2NMax {s t : State} (h : step s = .next t) : t.log2NMax = s.log2NMax := by
  rcases step_cases s with ⟨-, hs⟩ | ⟨-, hs⟩ | ⟨-, hs⟩ | ⟨-, hs⟩
  · exact (hostStep_log2NMax (hs.symm.trans h)).trans (dropTurn_log2NMax s)
  · exact (engineInternal_log2NMax (hs.symm.trans h)).trans (dropTurn_log2NMax s)
  · exact (engineCompletes_log2NMax (hs.symm.trans h)).trans (dropTurn_log2NMax s)
  · obtain rfl := Host.Outcome.next.inj (hs.symm.trans h)
    simp

end Sys2Proof.Machine

namespace Sys2Proof.Proofs

open Sys2Proof.Machine Sys2Proof.Claims

/-- Settles O57: at power-on the block is idle and no byte is listed. -/
theorem invariantHoldsAtReset : Obligations.InvariantHoldsAtReset := fun k =>
  BlockInv.of_idle rfl (resetFor_samples_wf k) (fun c => by cases c <;> exact List.forall_mem_nil _) (Nat.zero_le 5)

/-- Settles O58: by the agent that moves and, for the host, by the outcome of its access. -/
theorem everyStepKeepsInvariant : Obligations.EveryStepKeepsInvariant := fun _ _ h ht => h.step ht

/-- Settles O46: no outcome of a step writes the parameter. -/
theorem capIsConstant : Obligations.CapIsConstant :=
  ⟨access_read_reg .cap, fun s v => access_write_reg .cap v s, fun _ => rfl, fun _ _ => step_log2NMax⟩

/-- Settles O42: CMD and STATUS are registers, read without a side effect. -/
theorem commandAndStatusReads : Obligations.CommandAndStatusReads := fun s =>
  ⟨access_read_reg .cmd s, statusWord_eq s.status ▸ access_read_reg .status s⟩

/-- Settles O43: the write-1-to-clear update, whatever BUSY is. -/
theorem statusWriteClearsOnlyW1c : Obligations.StatusWriteClearsOnlyW1c := fun s w =>
  writeOneToClear_eq w s.status ▸ access_write_reg .status w s

/-- Settles O44: the write of each length register while idle and while busy, and its read. -/
theorem lengthRegisters : Obligations.LengthRegisters := by
  intro s v
  refine ⟨fun hb => ⟨(access_write_reg .reLen v s).trans ?reIdle, (access_write_reg .imLen v s).trans ?imIdle⟩,
    fun hb => ⟨(access_write_reg .reLen v s).trans ?reBusy, (access_write_reg .imLen v s).trans ?imBusy⟩,
    access_read_reg .reLen s, access_read_reg .imLen s⟩
  case reIdle | imIdle => simp [regWrite, hb]
  case reBusy | imBusy => simp [regWrite, hb, raiseHaz]

/-- Settles O45: IRQ_EN's one bit. -/
theorem irqEnableRegister : Obligations.IrqEnableRegister := by
  refine ⟨fun s v => ⟨access_write_reg .irqEn v s, ?_⟩, fun _ => rfl, fun _ => rfl⟩
  have hread : regRead .irqEn s = if s.irqEn then 1 else 0 := by cases h : s.irqEn <;> simp [regRead, h]
  exact hread ▸ access_read_reg .irqEn s

/-- Settles O7: each clause is the step of the agent whose turn it is. -/
theorem stepIsOneAgentsMove : Obligations.StepIsOneAgentsMove := by
  intro s
  refine ⟨fun t ts h => ?turn, fun a rest ⟨ht, hs⟩ => ?access, fun ht hs => ?noLine, fun h => ?complete,
    fun h => ?internal, fun h => ?reset, fun ht hb => ?busy, fun ht hb hs => ?idle⟩
  case turn => simp [nextTurn, h]
  case access => simp [step, ht, hostStep, hs, runLine, afterIssue, dropTurn]
  case noLine => simp [step, ht, hostStep, hs, dropTurn]
  case complete => simp [step, h, dropTurn]
  case internal => simp [step, h, dropTurn]
  case reset => simp [step, h, dropTurn]
  case busy => simp [nextTurn, ht, hb]
  case idle => simp [step, nextTurn, dropTurn_eq_self ht, ht, hb, hostStep, hs]

end Sys2Proof.Proofs
end

section
/-!
The twiddle ROM against the real cosine and sine (10_state R26). The square of each is rational in the nested square
roots of the half-angle formulas; these are enclosed in rational intervals, and the interval lies between the squares of
the points halfway from the ROM entry to the next finite values.
-/

namespace Sys2Proof.Machine

open Claims

/-! ### Nearest patterns (00_scope R8) -/

theorem roundedFrom_realValue {v : Word} {r : ℝ} (hfin : F32.isFinite v = true) (hv : realValue v = r)
    (h0 : r = 0 → v = 0x00000000) : RoundedFrom v r := by
  refine ⟨hfin, h0, fun w _ hne => ?_⟩
  rw [hv, sub_self, abs_zero, abs_pos, sub_ne_zero]
  exact hv ▸ hne

theorem realValue_zero : realValue 0x00000000 = 0 := by
  have h : F32.value 0x00000000 = 0 := rfl
  rw [realValue, h]
  norm_num

theorem realValue_one : realValue 0x3F800000 = 1 := by
  have h : F32.value 0x3F800000 = 2 ^ 149 := rfl
  rw [realValue, h]
  norm_num

theorem realValue_neg_one : realValue 0xBF800000 = -1 := by
  have h : F32.value 0xBF800000 = -2 ^ 149 := rfl
  rw [realValue, h]
  norm_num

/-- The distance, in units of 2^-149, that a positive normal pattern keeps to every other finite value: below a power of
two the spacing halves. -/
def valueGap (v : Word) : Nat := 2 ^ (F32.expField v - 2) * if F32.fracField v = 0 then 1 else 2

theorem valueGap_le {v w : Word} (he : 2 ≤ F32.expField v) (hs : F32.sign v = false)
    (hne : F32.value w ≠ F32.value v) : (valueGap v : Int) ≤ |F32.value w - F32.value v| := by
  obtain ⟨hgap, hgap'⟩ := F32.value_gap v w (F32.expField v - 2) (by omega) hs hne
  unfold valueGap
  split_ifs with hf
  · simpa using hgap
  · simpa [mul_comm] using hgap' hf

/-- A positive normal pattern nearer to `r` than half its gap is the nearest one. -/
theorem roundedFrom_of_near {v : Word} {r : ℝ} (hfin : F32.isFinite v = true) (he : 2 ≤ F32.expField v)
    (hs : F32.sign v = false) (hr : r ≠ 0) (h : 2 * |(F32.value v : ℝ) - 2 ^ 149 * r| < (valueGap v : ℝ)) :
    RoundedFrom v r := by
  refine ⟨hfin, fun h0 => absurd h0 hr, fun w _ hne => ?_⟩
  have hscale : ∀ u : Word, |realValue u - r| = |(F32.value u : ℝ) - 2 ^ 149 * r| / 2 ^ 149 := fun u => by
    rw [realValue, show (F32.value u : ℝ) / 2 ^ 149 - r = (F32.value u - 2 ^ 149 * r) / 2 ^ 149 by field_simp, abs_div,
      abs_of_pos (show (0 : ℝ) < 2 ^ 149 by positivity)]
  have hgap : (valueGap v : ℝ) ≤ |(F32.value w : ℝ) - F32.value v| := by
    exact_mod_cast valueGap_le he hs fun hvw => hne (by rw [realValue, hvw, realValue])
  have htri := abs_sub_le (F32.value w : ℝ) (2 ^ 149 * r) (F32.value v)
  rw [abs_sub_comm (2 ^ 149 * r)] at htri
  rw [hscale, hscale]
  gcongr
  linarith

/-! ### Enclosures -/

/-- The bounds are counts of 2^-64, fine enough for every entry of the ROM. -/
def boundScale : Nat := 2 ^ 64

/-- `y` lies between the two bounds. -/
def Encloses (p : Nat × Nat) (y : ℝ) : Prop := (p.1 : ℝ) ≤ boundScale * y ∧ boundScale * y ≤ p.2

/-- Bounds of the square root. -/
def sqrtBounds (p : Nat × Nat) : Nat × Nat := (Nat.sqrt (boundScale * p.1), Nat.sqrt (boundScale * p.2) + 1)

theorem Encloses.sqrt {p : Nat × Nat} {y : ℝ} (h : Encloses p y) : Encloses (sqrtBounds p) √y := by
  have hroot : (boundScale : ℝ) * √y = √(boundScale * (boundScale * y)) := by
    rw [← mul_assoc, Real.sqrt_mul (by positivity), Real.sqrt_mul_self (by positivity)]
  obtain ⟨hlow, hhigh⟩ := h
  unfold Encloses sqrtBounds
  rw [hroot]
  constructor
  · calc ((Nat.sqrt (boundScale * p.1) : ℕ) : ℝ) ≤ √((boundScale * p.1 : ℕ) : ℝ) := Real.nat_sqrt_le_real_sqrt
      _ ≤ √(boundScale * (boundScale * y)) := by push_cast; gcongr
  · calc √(boundScale * (boundScale * y)) ≤ √((boundScale * p.2 : ℕ) : ℝ) := by push_cast; gcongr
      _ ≤ ((Nat.sqrt (boundScale * p.2) + 1 : ℕ) : ℝ) := by exact_mod_cast Real.real_sqrt_le_nat_sqrt_succ

theorem Encloses.two_add {p : Nat × Nat} {y : ℝ} (h : Encloses p y) :
    Encloses (2 * boundScale + p.1, 2 * boundScale + p.2) (2 + y) := by
  obtain ⟨hlow, hhigh⟩ := h
  constructor <;> push_cast <;> linarith

theorem Encloses.two_sub {p : Nat × Nat} {y : ℝ} (h : Encloses p y) (hy : y ≤ 2) :
    Encloses (2 * boundScale - p.2, 2 * boundScale - p.1) (2 - y) := by
  obtain ⟨hlow, hhigh⟩ := h
  constructor
  · rcases le_total p.2 (2 * boundScale) with hp | hp
    · rw [Nat.cast_sub hp]
      push_cast
      linarith
    · rw [Nat.sub_eq_zero_of_le hp, Nat.cast_zero]
      exact mul_nonneg (Nat.cast_nonneg _) (sub_nonneg.mpr hy)
  · have hle : ((2 * boundScale : ℕ) : ℝ) - p.1 ≤ ((2 * boundScale - p.1 : ℕ) : ℝ) := by
      rw [sub_le_iff_le_add]
      exact_mod_cast le_tsub_add
    refine le_trans ?_ hle
    push_cast
    linarith

/-- Bounds of n nested square roots of 2, which are twice the cosine of pi / 2^(n+1). -/
def nestedRootBounds : Nat → Nat × Nat
  | 0 => (0, 0)
  | n + 1 => sqrtBounds (2 * boundScale + (nestedRootBounds n).1, 2 * boundScale + (nestedRootBounds n).2)

theorem encloses_sqrtTwoAddSeries (n : Nat) : Encloses (nestedRootBounds n) (Real.sqrtTwoAddSeries 0 n) := by
  induction n with
  | zero => simp [Encloses, nestedRootBounds]
  | succ n ih => exact ih.two_add.sqrt

/-- Bounds of the square of twice the sine of pi / 2^(n+2). -/
def sinSquareBounds (n : Nat) : Nat × Nat :=
  (2 * boundScale - (nestedRootBounds n).2, 2 * boundScale - (nestedRootBounds n).1)

theorem encloses_sin_sq (n : Nat) : Encloses (sinSquareBounds n) ((2 * Real.sin (Real.pi / 2 ^ (n + 2))) ^ 2) := by
  have hsq : (2 * Real.sin (Real.pi / 2 ^ (n + 2))) ^ 2 = 2 - Real.sqrtTwoAddSeries 0 n := by
    rw [mul_pow, Real.sin_sq_pi_over_two_pow_succ]
    ring
  rw [hsq]
  exact (encloses_sqrtTwoAddSeries n).two_sub (Real.sqrtTwoAddSeries_lt_two n).le

/-- Bounds of the square of twice the cosine of pi / 2^(n+2). -/
def cosSquareBounds (n : Nat) : Nat × Nat :=
  (2 * boundScale + (nestedRootBounds n).1, 2 * boundScale + (nestedRootBounds n).2)

theorem encloses_cos_sq (n : Nat) : Encloses (cosSquareBounds n) ((2 * Real.cos (Real.pi / 2 ^ (n + 2))) ^ 2) := by
  have hsq : (2 * Real.cos (Real.pi / 2 ^ (n + 2))) ^ 2 = 2 + Real.sqrtTwoAddSeries 0 n := by
    rw [mul_pow, Real.cos_sq', Real.sin_sq_pi_over_two_pow_succ]
    ring
  rw [hsq]
  exact (encloses_sqrtTwoAddSeries n).two_add

theorem cos_sin_pos (n : Nat) : 0 < Real.cos (Real.pi / 2 ^ (n + 2)) ∧ 0 < Real.sin (Real.pi / 2 ^ (n + 2)) := by
  have hpos : 0 < Real.pi / 2 ^ (n + 2) := by positivity
  have hlt : Real.pi / 2 ^ (n + 2) < Real.pi / 2 :=
    div_lt_div_of_pos_left Real.pi_pos two_pos (lt_self_pow₀ one_lt_two (by omega))
  exact ⟨Real.cos_pos_of_mem_Ioo ⟨by linarith, hlt⟩, Real.sin_pos_of_pos_of_lt_pi hpos (by linarith)⟩

/-! ### The ROM -/

/-- The pattern is a positive normal one, and the bounds, counts of 2^-64 for the square of twice the rounded value, lie
between the squares of twice the points halfway to the next finite values. -/
abbrev NearSquare (v : Word) (p : Nat × Nat) : Prop :=
  F32.isFinite v = true ∧ 2 ≤ F32.expField v ∧ F32.sign v = false ∧
    (2 * F32.value v - valueGap v) ^ 2 < (2 ^ 234 * p.1 : Nat) ∧
    (2 ^ 234 * p.2 : Nat) < (2 * F32.value v + valueGap v) ^ 2

theorem NearSquare.roundedFrom {v : Word} {p : Nat × Nat} {r : ℝ} (h : NearSquare v p)
    (hp : Encloses p ((2 * r) ^ 2)) (hr : 0 < r) : RoundedFrom v r := by
  obtain ⟨hfin, he, hs, hlow, hhigh⟩ := h
  obtain ⟨hp1, hp2⟩ := hp
  rw [show (boundScale : ℝ) = 2 ^ 64 by norm_num [boundScale]] at hp1 hp2
  have hlow' : (2 * F32.value v - valueGap v : ℝ) ^ 2 < 2 ^ 234 * p.1 := by exact_mod_cast hlow
  have hhigh' : (2 ^ 234 * p.2 : ℝ) < (2 * F32.value v + valueGap v) ^ 2 := by exact_mod_cast hhigh
  have hsum : (0 : ℝ) ≤ 2 * F32.value v + valueGap v := by
    have hv : (0 : ℝ) ≤ F32.value v := by simp [F32.value, hs]
    positivity
  have habove : 2 * F32.value v - valueGap v < 2 ^ 149 * (2 * r) :=
    (abs_lt_of_sq_lt_sq' (by linarith) (by positivity)).2
  have hbelow : 2 ^ 149 * (2 * r) < 2 * F32.value v + valueGap v :=
    (abs_lt_of_sq_lt_sq' (by linarith) hsum).2
  have hnear : 2 * |(F32.value v : ℝ) - 2 ^ 149 * r| < (valueGap v : ℝ) := by
    rw [← lt_div_iff₀' two_pos, abs_sub_lt_iff]
    constructor <;> linarith
  exact roundedFrom_of_near hfin he hs hr.ne' hnear

/-- Every entry from stage 3 on, checked against its bounds. -/
theorem nearSquare_twiddle : ∀ n < 14, NearSquare (twiddle (n + 3)).1 (cosSquareBounds n) ∧
    NearSquare (twiddle (n + 3)).2 (sinSquareBounds n) := by decide +kernel

end Sys2Proof.Machine

namespace Sys2Proof.Proofs

open Sys2Proof.Machine Sys2Proof.Claims

/-- Settles O60: the half turn and the quarter turn are exact, and from stage 3 on the half-angle enclosures decide. -/
theorem twiddleRomIsRoundedCosineAndSine : Obligations.TwiddleRomIsRoundedCosineAndSine := by
  intro s h1 h16
  obtain rfl | rfl | ⟨n, rfl⟩ : s = 1 ∨ s = 2 ∨ ∃ n, s = n + 3 := by
    rcases Nat.lt_or_ge s 3 with h | h
    · omega
    · exact .inr (.inr ⟨s - 3, by omega⟩)
  · have hcos : Real.cos (Real.pi / 2 ^ (1 - 1)) = -1 := by simp
    have hsin : Real.sin (Real.pi / 2 ^ (1 - 1)) = 0 := by simp
    exact ⟨roundedFrom_realValue rfl (realValue_neg_one.trans hcos.symm) (by simp),
      roundedFrom_realValue rfl (realValue_zero.trans hsin.symm) fun _ => rfl⟩
  · have hcos : Real.cos (Real.pi / 2 ^ (2 - 1)) = 0 := by simp
    have hsin : Real.sin (Real.pi / 2 ^ (2 - 1)) = 1 := by simp
    exact ⟨roundedFrom_realValue rfl (realValue_zero.trans hcos.symm) fun _ => rfl,
      roundedFrom_realValue rfl (realValue_one.trans hsin.symm) (by simp)⟩
  · have hn : n < 14 := by omega
    obtain ⟨hcos, hsin⟩ := nearSquare_twiddle n hn
    obtain ⟨hcos', hsin'⟩ := cos_sin_pos n
    exact ⟨hcos.roundedFrom (encloses_cos_sq n) hcos', hsin.roundedFrom (encloses_sin_sq n) hsin'⟩

end Sys2Proof.Proofs
end

section
/-!
Host accesses by where they reach (20_memory R33 to R39): an illegal access, an access to a sample word; and what a
completion leaves unchanged (R42).
-/

namespace Sys2Proof.Machine

open Claims

/-! ### Illegal accesses -/

theorem aligned_mapped_regOffset (s : State) (r : Reg) : regOffset r % 4 = 0 ∧ Mapped s (regOffset r) := by
  cases r <;> exact ⟨rfl, .inl (by decide)⟩

theorem aligned_mapped_sampleOffset {s : State} {i : Nat} (hi : i < nMax s) (c : Chan) :
    sampleOffset c i % 4 = 0 ∧ Mapped s (sampleOffset c i) := by
  unfold nMax at hi
  unfold Mapped
  cases c <;> simp only [sampleOffset, chanBase] <;> omega

/-- An access that reaches a register or a sample word is legal (20_memory R34), so an illegal one reaches nothing. -/
theorem locate_eq_none_of_not_legal {s : State} {a : Access} (h : ¬Legal s a) : locate s a.off a.size = none := by
  rcases locate_cases s a.off a.size with hnone | ⟨hsize, r, -, hoff⟩ | ⟨hsize, c, i, -, hi, hoff⟩
  · exact hnone
  · exact absurd ⟨hsize, hoff ▸ aligned_mapped_regOffset s r⟩ h
  · exact absurd ⟨hsize, hoff ▸ aligned_mapped_sampleOffset hi c⟩ h

/-! ### Accesses to sample words -/

theorem nMax_le (s : State) : nMax s ≤ 2 ^ 16 := Nat.pow_le_pow_right two_pos (Nat.le_of_lt_succ s.log2NMax.isLt)

/-- The windows lie within the port's 22 bits of offset (20_memory R33). -/
theorem toNat_ofNat_sampleOffset {s : State} {i : Nat} (hi : i < nMax s) (c : Chan) :
    (BitVec.ofNat 22 (sampleOffset c i)).toNat = sampleOffset c i := by
  have hn := nMax_le s
  refine Nat.mod_eq_of_lt ?_
  cases c <;> simp only [sampleOffset, chanBase] <;> omega

/-- The register file ends below the windows (10_state R18). -/
theorem regAt_sampleOffset (c : Chan) (i : Nat) : regAt (sampleOffset c i) = none := by
  have h : 0x100000 ≤ sampleOffset c i := by cases c <;> simp only [sampleOffset, chanBase] <;> omega
  unfold regAt
  split
  case h_7 => rfl
  all_goals omega

theorem sampleAt_sampleOffset {n i : Nat} (hi : i < n) (hn : n ≤ 2 ^ 16) (c : Chan) :
    sampleAt n (sampleOffset c i) = some (.sample c i) := by
  cases c
  case re =>
    rw [sampleAt, if_pos (by simp only [sampleOffset]; omega)]
    simp [sampleOffset]
  case im =>
    rw [sampleAt, if_neg (by simp only [sampleOffset, chanBase]; omega), if_pos (by simp only [sampleOffset]; omega)]
    simp [sampleOffset]

theorem locate_sampleOffset {s : State} {i : Nat} (hi : i < nMax s) (c : Chan) :
    locate s (BitVec.ofNat 22 (sampleOffset c i)) .word = some (.sample c i) := by
  simp [locate, toNat_ofNat_sampleOffset hi, aligned_mapped_sampleOffset hi, regAt_sampleOffset,
    sampleAt_sampleOffset hi (nMax_le s)]

/-- A write to a sample word (20_memory R38, R39). -/
theorem access_write_sample {s : State} {i : Nat} (hi : i < nMax s) (c : Chan) (v : Word) :
    access (wordWrite (BitVec.ofNat 22 (sampleOffset c i)) v) s =
      .next (if s.status.busy then raiseHaz s else { s with samples := s.samples.set c i v }) := by
  simp [access, wordWrite, memWrite, locate_sampleOffset hi]

/-- A read of a sample word (20_memory R37, R39). -/
theorem access_read_sample {s : State} {i : Nat} (hi : i < nMax s) (c : Chan) :
    access (wordRead (BitVec.ofNat 22 (sampleOffset c i))) s =
      .next (if s.status.busy then { raiseHaz s with rdata := 0 } else { s with rdata := s.samples.get c i }) := by
  simp only [access, wordRead, hostRead, memRead, locate_sampleOffset hi]
  split <;> rfl

/-! ### The words of a command -/

/-- A byte outside the words 0 to N-1 of its channel survives every write of a sample word below index N, an unwritten
byte staying unwritten (20_memory R42). -/
theorem read_keptBelow {N : Nat} {c : Chan} {a : Nat} (ha : a < chanBase c ∨ chanBase c + 4 * N ≤ a)
    (b : Option Byte) : KeptBelow N (fun x => (x.chan c).read a = b) := by
  intro x c' i w hi hx
  refine (Samples.read_set_other x w ?_).trans hx
  by_cases hc : c = c'
  · subst hc
    unfold sampleOffset
    omega
  · exact .inl hc

end Sys2Proof.Machine

namespace Sys2Proof.Proofs

open Sys2Proof.Machine Sys2Proof.Claims

/-- Settles O38: the effect of the latched command writes only sample words below LN. -/
theorem completionFrame : Obligations.CompletionFrame := by
  intro s t h
  rcases engineCompletes_cases s with ⟨hb, hs⟩ | ⟨hb, hl, hs⟩ | ⟨-, -, hs⟩
  · obtain rfl := Host.Outcome.next.inj (hs.symm.trans h)
    exact ⟨fun _ => rfl, by simp [hb]⟩
  · obtain rfl := Host.Outcome.next.inj (hs.symm.trans h)
    exact ⟨by simp [hb], fun _ => ⟨rfl, fun c a ha => (read_keptBelow ha _).effect rfl hl⟩⟩
  · simp [hs] at h

/-- Settles O47: an illegal access reaches no place, read or written. -/
theorem illegalAccessOnlySetsBuserr : Obligations.IllegalAccessOnlySetsBuserr := by
  intro s a h
  have hloc := locate_eq_none_of_not_legal h
  cases hd : a.dir
  case read => simp [access, hd, hostRead, memRead, hloc, raiseBuserr]
  case write => simp [access, hd, memWrite, hloc, raiseBuserr]

/-- Settles O48: the write is one sample write, and the read returns the sample. -/
theorem sampleAccessesWhileIdle : Obligations.SampleAccessesWhileIdle := by
  intro s c i v hb hi
  have hwrite := access_write_sample hi c v
  have hread := access_read_sample hi c
  rw [hb] at hwrite hread
  exact ⟨⟨_, hwrite, rfl, Samples.get_set_same _ _ _ _, fun _ _ h => Samples.read_set_other _ _ h⟩, hread⟩

/-- Settles O49: both accesses find the block busy. -/
theorem sampleAccessesRefusedWhileBusy : Obligations.SampleAccessesRefusedWhileBusy := by
  intro s c i v hb hi
  have hwrite := access_write_sample hi c v
  have hread := access_read_sample hi c
  rw [hb] at hwrite hread
  exact ⟨hwrite, hread⟩

end Sys2Proof.Proofs
end

section
/-!
The three fields of a command word (30_encoding R48), and decoding (R51) and the opcode map (R49) said in terms of them.
-/

namespace Sys2Proof

open Machine

/-! ### Fields (R48) -/

theorem toNat_opField (w : Word) : (opField w).toNat = w.toNat % 16 := by
  rw [opField, BitVec.extractLsb'_toNat, Nat.shiftRight_zero]

theorem toNat_stageField (w : Word) : (stageField w).toNat = w.toNat / 16 % 32 := by
  rw [stageField, BitVec.extractLsb'_toNat, Nat.shiftRight_eq_div_pow]

theorem toNat_rsvField (w : Word) : (rsvField w).toNat = w.toNat / 512 := by
  rw [rsvField, BitVec.extractLsb'_toNat, Nat.shiftRight_eq_div_pow]
  exact Nat.mod_eq_of_lt (by omega)

theorem opField_eq_five_iff (w : Word) : opField w = 0x5 ↔ w.toNat % 16 = 5 := by
  rw [← BitVec.toNat_inj, toNat_opField]
  rfl

theorem stageField_eq_zero_iff (w : Word) : stageField w = 0 ↔ w.toNat / 16 % 32 = 0 := by
  rw [← BitVec.toNat_inj, toNat_stageField]
  rfl

theorem rsvField_eq_zero_iff (w : Word) : rsvField w = 0 ↔ w.toNat < 512 := by
  rw [← BitVec.toNat_inj, toNat_rsvField]
  exact Nat.div_eq_zero_iff_lt (by decide)

/-- The word has these values of OP and S, and no reserved bit set. -/
structure HasFields (w : Word) (op : BitVec 4) (S : BitVec 5) : Prop where
  op : opField w = op
  stage : stageField w = S
  reserved : rsvField w = 0

theorem HasFields.unique {v w : Word} {op : BitVec 4} {S : BitVec 5} (hv : HasFields v op S) (hw : HasFields w op S) :
    v = w := by
  have hop := congrArg BitVec.toNat (hv.op.trans hw.op.symm)
  have hstage := congrArg BitVec.toNat (hv.stage.trans hw.stage.symm)
  have hrsv := congrArg BitVec.toNat (hv.reserved.trans hw.reserved.symm)
  rw [toNat_opField, toNat_opField] at hop
  rw [toNat_stageField, toNat_stageField] at hstage
  rw [toNat_rsvField, toNat_rsvField] at hrsv
  exact BitVec.eq_of_toNat_eq (by omega)

/-- The encoder writes the fields that the command latches (R53). -/
theorem hasFields_encode {i : Instr} (hi : wellFormed i = true) : HasFields (encode i) (latchOf i).1 (latchOf i).2 := by
  cases i with
  | stage s =>
    have hs : s < 32 := Nat.lt_succ_of_le (of_decide_eq_true hi)
    have hfields : ∀ k < 32, opField (encode (.stage k)) = 0x5 ∧ stageField (encode (.stage k)) = BitVec.ofNat 5 k ∧
        rsvField (encode (.stage k)) = 0 := by decide
    obtain ⟨hop, hstage, hrsv⟩ := hfields s hs
    exact ⟨hop, hstage, hrsv⟩
  | _ => exact ⟨rfl, rfl, rfl⟩

/-! ### Decoding (R51) -/

theorem exists_commandOf_iff (op : BitVec 4) (S : BitVec 5) : (∃ i, commandOf op S = some i) ↔ op.toNat < 8 := by
  unfold commandOf
  split
  case h_9 =>
    simp only [imp_false] at *
    have h8 : ¬op.toNat < 8 := by omega
    simp [h8]
  all_goals simp [*]

/-- S counts for STAGE alone (R50), so a command without an operand latches none. -/
theorem latchOf_stage_eq_zero {i : Instr} (h : (latchOf i).1 ≠ 0x5) : (latchOf i).2 = 0 := by
  cases i with
  | stage s => exact absurd rfl h
  | _ => rfl

/-- The command of an opcode is the one that latches this opcode, with the stage field if it is STAGE. -/
theorem commandOf_eq_some_iff {op : BitVec 4} {S : BitVec 5} {i : Instr} :
    commandOf op S = some i ↔ wellFormed i = true ∧ op = (latchOf i).1 ∧ (op = 0x5 → S = (latchOf i).2) := by
  constructor
  · intro h
    unfold commandOf at h
    split at h
    case h_6 hop =>
      obtain rfl := Option.some.inj h
      exact ⟨decide_eq_true (Nat.le_of_lt_succ S.isLt), BitVec.eq_of_toNat_eq hop, fun _ => by simp [latchOf]⟩
    case h_9 => simp at h
    all_goals
      rename_i hop
      obtain rfl := Option.some.inj h
      exact ⟨rfl, BitVec.eq_of_toNat_eq hop, fun h5 => by simp [h5] at hop⟩
  · rintro ⟨hi, rfl, hS⟩
    cases i with
    | stage s =>
      have hs : s < 2 ^ 5 := Nat.lt_succ_of_le (of_decide_eq_true hi)
      rw [hS rfl]
      exact congrArg (fun n => some (Instr.stage n)) (Nat.mod_eq_of_lt hs)
    | _ => rfl

theorem decode_eq_ok_iff_commandOf {w : Word} {i : Instr} :
    decode w = .ok i ↔
      commandOf (opField w) (stageField w) = some i ∧ rsvField w = 0 ∧ (opField w ≠ 0x5 → stageField w = 0) := by
  unfold decode
  cases commandOf (opField w) (stageField w) with
  | none => simp
  | some j =>
    split_ifs with hrsv hstage
    · exact iff_of_false (by simp) fun ⟨_, h, _⟩ => hrsv h
    · exact iff_of_false (by simp) fun ⟨_, _, h⟩ => hstage.2 (h hstage.1)
    · exact ⟨fun h => ⟨congrArg some (Except.ok.inj h), not_not.mp hrsv, not_and_not_right.mp hstage⟩,
        fun ⟨h, _, _⟩ => congrArg Except.ok (Option.some.inj h)⟩

/-- The words that decode to a command are those with the fields it latches. -/
theorem decode_eq_ok_iff {w : Word} {i : Instr} :
    decode w = .ok i ↔ wellFormed i = true ∧ HasFields w (latchOf i).1 (latchOf i).2 := by
  rw [decode_eq_ok_iff_commandOf, commandOf_eq_some_iff]
  constructor
  · rintro ⟨⟨hi, hop, hS⟩, hrsv, hzero⟩
    refine ⟨hi, hop, ?_, hrsv⟩
    by_cases h5 : opField w = 0x5
    · exact hS h5
    · rw [hzero h5, latchOf_stage_eq_zero (hop ▸ h5)]
  · rintro ⟨hi, hop, hS, hrsv⟩
    exact ⟨⟨hi, hop, fun _ => hS⟩, hrsv, fun h5 => hS.trans (latchOf_stage_eq_zero (hop ▸ h5))⟩

theorem exists_decode_error_iff_forall_ne_ok (w : Word) : (∃ e, decode w = .error e) ↔ ∀ i, decode w ≠ .ok i := by
  cases decode w <;> simp

/-- A word decodes to a command exactly when none of the three causes of ILLEGAL holds. -/
theorem exists_decode_ok_iff (w : Word) :
    (∃ i, decode w = .ok i) ↔
      (opField w).toNat < 8 ∧ rsvField w = 0 ∧ (opField w ≠ 0x5 → stageField w = 0) := by
  simp only [decode_eq_ok_iff_commandOf, exists_and_right, exists_commandOf_iff]

/-- The fields say the whole word, so a command has no other word than its encoding. -/
theorem encode_of_decode {w : Word} {i : Instr} (h : decode w = .ok i) : wellFormed i = true ∧ encode i = w := by
  obtain ⟨hi, hw⟩ := decode_eq_ok_iff.mp h
  exact ⟨hi, (hasFields_encode hi).unique hw⟩

/-! ### The opcode map (R49) -/

theorem extractLsb'_eq_of_and_eq {w mask m : Word} {start len : Nat} (h : w &&& mask = m)
    (hmask : mask.extractLsb' start len = BitVec.allOnes len) : w.extractLsb' start len = m.extractLsb' start len := by
  rw [← h, BitVec.extractLsb'_and, hmask, BitVec.and_allOnes]

/-- What a selected row says of the fields: every mask covers OP and the reserved bits, and S as well unless the row is
the one of STAGE. -/
theorem fields_of_selects {r : OpcodeRow} {w : Word} (hr : r ∈ opcodeMap) (h : r.selects w = true) :
    opField w = opField r.matchWord ∧ rsvField w = 0 ∧ (opField w ≠ 0x5 → stageField w = 0) := by
  have hmasks : ∀ r ∈ opcodeMap, opField r.mask = BitVec.allOnes 4 ∧ rsvField r.mask = BitVec.allOnes 23 ∧
      (opField r.matchWord ≠ 0x5 → stageField r.mask = BitVec.allOnes 5) ∧ rsvField r.matchWord = 0 ∧
      (opField r.matchWord ≠ 0x5 → stageField r.matchWord = 0) := by decide
  obtain ⟨hop, hrsv, hstage, hrsv0, hstage0⟩ := hmasks r hr
  have heq : w &&& r.mask = r.matchWord := eq_of_beq h
  have hopw : opField w = opField r.matchWord := extractLsb'_eq_of_and_eq heq hop
  refine ⟨hopw, (extractLsb'_eq_of_and_eq heq hrsv).trans hrsv0, fun h5 => ?_⟩
  rw [hopw] at h5
  exact (extractLsb'_eq_of_and_eq heq (hstage h5)).trans (hstage0 h5)

theorem eq_of_opField_eq {r r' : OpcodeRow} (hr : r ∈ opcodeMap) (hr' : r' ∈ opcodeMap)
    (h : opField r.matchWord = opField r'.matchWord) : r = r' := by
  have hmap : ∀ r ∈ opcodeMap, ∀ r' ∈ opcodeMap, opField r.matchWord = opField r'.matchWord → r = r' := by decide
  exact hmap r hr r' hr' h

theorem toNat_opField_lt {r : OpcodeRow} (hr : r ∈ opcodeMap) : (opField r.matchWord).toNat < 8 := by
  have hmap : ∀ r ∈ opcodeMap, (opField r.matchWord).toNat < 8 := by decide
  exact hmap r hr

theorem exists_decode_ok_of_selects {r : OpcodeRow} {w : Word} (hr : r ∈ opcodeMap) (h : r.selects w = true) :
    ∃ i, decode w = .ok i := by
  obtain ⟨hop, hrsv, hstage⟩ := fields_of_selects hr h
  exact (exists_decode_ok_iff w).mpr ⟨hop ▸ toNat_opField_lt hr, hrsv, hstage⟩

theorem encodingRow (i : Instr) : Laws.EncodingRow.Statement i := by
  cases i with
  | nop => exact Laws.EncodingRow.nop
  | fft => exact Laws.EncodingRow.fft
  | ifft => exact Laws.EncodingRow.ifft
  | bitrev => exact Laws.EncodingRow.bitrev
  | stages => exact Laws.EncodingRow.stages
  | stage s => exact Laws.EncodingRow.stage s
  | conj => exact Laws.EncodingRow.conj
  | scale => exact Laws.EncodingRow.scale

theorem exists_selects_of_decode {w : Word} {i : Instr} (h : decode w = .ok i) :
    ∃ r ∈ opcodeMap, r.selects w = true ∧ r.mnemonic = mnemonic i := by
  obtain ⟨hi, rfl⟩ := encode_of_decode h
  obtain ⟨r, hr, hname, hsel⟩ := encodingRow i hi
  exact ⟨r, hr, hsel, hname⟩

end Sys2Proof

namespace Sys2Proof.Proofs

open Sys2Proof

/-- Settles O1: the encoder writes the fields that the decoder looks for. -/
theorem encodedCommandsDecodeBack : Obligations.EncodedCommandsDecodeBack := fun _ hi =>
  decode_eq_ok_iff.mpr ⟨hi, hasFields_encode hi⟩

/-- Settles O2: the word has the fields of the command's encoding. -/
theorem decodedWordsEncodeBack : Obligations.DecodedWordsEncodeBack := fun _ _ => encode_of_decode

/-- Settles O3: the causes of ILLEGAL, each field read off the word's number. -/
theorem illegalWordsAreExactly : Obligations.IllegalWordsAreExactly := by
  intro w
  rw [exists_decode_error_iff_forall_ne_ok, ← not_exists, exists_decode_ok_iff, toNat_opField, rsvField_eq_zero_iff,
    ne_eq, opField_eq_five_iff, stageField_eq_zero_iff]
  omega

/-- Settles O4: the rows have different opcodes; a selected row leaves no cause of ILLEGAL; and a word that decodes to a
command is its encoding, which selects the command's row. -/
theorem wordsDecodeByTheirRow : Obligations.WordsDecodeByTheirRow := by
  refine ⟨fun w r hr r' hr' h h' => ?disjoint, fun w => ?illegal, fun w i => exists_selects_of_decode⟩
  case disjoint =>
    obtain ⟨hop, -, -⟩ := fields_of_selects hr h
    obtain ⟨hop', -, -⟩ := fields_of_selects hr' h'
    exact eq_of_opField_eq hr hr' (hop.symm.trans hop')
  case illegal =>
    rw [exists_decode_error_iff_forall_ne_ok]
    constructor
    · intro hne r hr
      refine Bool.eq_false_iff.mpr fun hsel => ?_
      obtain ⟨i, hi⟩ := exists_decode_ok_of_selects hr hsel
      exact hne i hi
    · intro hnone i hi
      obtain ⟨r, hr, hsel, -⟩ := exists_selects_of_decode hi
      exact Bool.eq_false_iff.mp (hnone r hr) hsel

/-- Settles O5: each of the words is the encoding of its command. -/
theorem specWordsDecode : Obligations.SpecWordsDecode :=
  have decodes := encodedCommandsDecodeBack
  ⟨decodes .nop rfl, decodes .fft rfl, decodes .ifft rfl, decodes .bitrev rfl, decodes .stages rfl,
    decodes (.stage 0) rfl, decodes (.stage 1) rfl, decodes (.stage 2) rfl, decodes (.stage 3) rfl,
    decodes (.stage 16) rfl, decodes (.stage 31) rfl, decodes .conj rfl, decodes .scale rfl⟩

end Sys2Proof.Proofs
end

section
/-!
A command that is accepted and runs to its completion (40_command R56, R58), and a list of commands one after another
(30_encoding R55): what they leave of the samples and of STATUS.
-/

namespace Sys2Proof.Machine

open Claims

/-! ### One command -/

/-- The command passes its checks on lengths of 2^m (60_exceptions R95) and works on the samples. -/
def RunsAt (m : Nat) (i : Instr) : Prop := i ≠ .nop ∧ ∀ k, i = .stage k → 1 ≤ k ∧ k ≤ m

/-- What a command makes of the samples on lengths of 2^m (40_command R59). -/
def commandEffect (m : Nat) : Instr → Samples → Samples
  | .nop, x => x
  | .fft, x => fftBody (2 ^ m) m x
  | .ifft, x => ifftBody (2 ^ m) m x
  | .bitrev, x => bitRevBody (2 ^ m) x
  | .stages, x => stagesBody (2 ^ m) m x
  | .stage k, x => stageBody (2 ^ m) k x
  | .conj, x => conjBody (2 ^ m) x
  | .scale, x => scaleBody (2 ^ m) m x

/-- STATUS after a command has completed (R56, R58). -/
def completedStatus (f : Status) : Status := { f with busy := false, done := true, err := 0 }

variable {s : State} {m : Nat}

theorem commandError_eq_none {i : Instr} (hlen : LengthsAre s m) (hi : RunsAt m i) : commandError i s = .none := by
  have h : lengthError s = .none := (lengthError_eq_none_iff s).mpr ⟨m, hlen⟩
  cases i with
  | nop => rfl
  | stage k =>
    obtain ⟨-, hlog, -⟩ := hlen
    obtain ⟨hk, hkm⟩ := hi.2 k rfl
    simp only [commandError, stageError, h, log2_of_toNat hlog]
    exact if_neg (by omega)
  | _ => exact h

theorem effect_accept {i : Instr} (hlen : LengthsAre s m) (hi : RunsAt m i) :
    effect (accept (latchOf i).1 (latchOf i).2 s) = commandEffect m i s.samples := by
  obtain ⟨-, hlog, hle⟩ := hlen
  have hm : (BitVec.ofNat 5 (log2 s.reLen)).toNat = m := by rw [log2_of_toNat hlog, BitVec.toNat_ofNat]; omega
  cases i with
  | nop => exact absurd rfl hi.1
  | stage k =>
    obtain ⟨-, hkm⟩ := hi.2 k rfl
    have hk : (BitVec.ofNat 5 k).toNat = k := by rw [BitVec.toNat_ofNat]; omega
    simp [effect, latchOf, commandEffect, hlog, hk]
  | _ => simp [effect, latchOf, commandEffect, hlog, hm]

/-! ### A list of commands -/

/-- `u` is what the commands of `l`, on lengths of 2^m, leave of `s`. -/
structure LeftBy (l : List Instr) (m : Nat) (s u : State) : Prop where
  samples : u.samples = l.foldl (fun x i => commandEffect m i x) s.samples
  status : u.status = l.foldl (fun f _ => completedStatus f) s.status
  lengths : LengthsAre u m

theorem exists_runsTo {i : Instr} (hb : s.status.busy = false) (hlen : LengthsAre s m) (hi : RunsAt m i) :
    ∃ u, RunsTo i s u ∧ LeftBy [i] m s u := by
  have he := commandError_eq_none hlen hi
  have hexec : exec i s = .next (accept (latchOf i).1 (latchOf i).2 s) := by
    rw [exec_eq_submit hi.1, he, submit_idle_none hb]
  have hdone : engineCompletes (accept (latchOf i).1 (latchOf i).2 s) = .next _ :=
    if_pos (latchesConsistent_accept hi.1 he)
  exact ⟨_, ⟨_, hexec, rfl, hdone⟩, { samples := effect_accept hlen hi, status := rfl, lengths := hlen }⟩

theorem exists_runAll {l : List Instr} (hb : s.status.busy = false) (hlen : LengthsAre s m)
    (hl : ∀ i ∈ l, RunsAt m i) : ∃ u, RunAll l s u ∧ LeftBy l m s u := by
  induction l generalizing s with
  | nil => exact ⟨s, .nil s, { samples := rfl, status := rfl, lengths := hlen }⟩
  | cons i l ih =>
    obtain ⟨hi, hl⟩ := List.forall_mem_cons.mp hl
    obtain ⟨t, hit, ht⟩ := exists_runsTo hb hlen hi
    obtain ⟨u, htu, hu⟩ := ih (by rw [ht.status]; rfl) ht.lengths hl
    refine ⟨u, .cons hit htu, { samples := ?_, status := ?_, lengths := hu.lengths }⟩
    · rw [hu.samples, ht.samples]; rfl
    · rw [hu.status, ht.status]; rfl

/-! ### The host's reads -/

@[simp] theorem hostRead_script (off : BitVec 22) (size : Size) (s : State) :
    (hostRead off size s).script = s.script := by
  obtain ⟨v, h | h | h⟩ := hostRead_outcome off size s <;> rw [h] <;> rfl

end Sys2Proof.Machine

namespace Sys2Proof.Proofs

open Sys2Proof Sys2Proof.Machine Sys2Proof.Claims

/-- Settles O25: FFT's effect is the two others' in a row, and STATUS records only that a command completed. -/
theorem fftIsBitrevThenStages : Obligations.FftIsBitrevThenStages := by
  intro s m hb hlen
  obtain ⟨u, hu, hfft⟩ := exists_runsTo (i := .fft) hb hlen (by simp [RunsAt])
  obtain ⟨v, hv, hlist⟩ := exists_runAll (l := [.bitrev, .stages]) hb hlen (by simp [RunsAt])
  exact ⟨u, v, hu, hv, hfft.samples.trans hlist.samples.symm, hfft.status.trans hlist.status.symm⟩

/-- Settles O26: STAGES folds the single stages over their indices. -/
theorem stagesAreEachStageInOrder : Obligations.StagesAreEachStageInOrder := by
  intro s m hb hlen _
  have hall : ∀ i ∈ (List.range' 1 m).map Instr.stage, RunsAt m i := by
    rintro _ hi
    obtain ⟨k, hk, rfl⟩ := List.mem_map.mp hi
    rw [List.mem_range'_1] at hk
    refine ⟨by simp, ?_⟩
    rintro _ ⟨⟩
    omega
  obtain ⟨u, hu, hstages⟩ := exists_runsTo (i := .stages) hb hlen (by simp [RunsAt])
  obtain ⟨v, hv, hlist⟩ := exists_runAll hb hlen hall
  refine ⟨u, v, hu, hv, hstages.samples.trans ?_⟩
  rw [hlist.samples, List.foldl_map]
  rfl

/-- Settles O54: the read leaves the script, so a line put back stands before the same rest. -/
theorem pollRepeatsUntilMatch : Obligations.PollRepeatsUntilMatch := by
  intro s off mask value rest hturn hscript
  refine ⟨hostRead off .word (afterIssue s rest), rfl, ?_⟩
  simp [step, hturn, hostStep, hscript, runLine, dropTurn, afterIssue]

end Sys2Proof.Proofs
end

section
/-!
The permutation in closed form (41_permutation R63, R65, R68): the cursor counts in reversed binary, so the loop swaps
each index with its reversal once.
-/

namespace Sys2Proof.Machine

theorem two_pow_succ_half (n : Nat) : 2 ^ (n + 1) / 2 = 2 ^ n := Nat.mul_div_cancel _ two_pos

/-! ### Reversal (00_scope R16) -/

theorem revBits_zero (m : Nat) : revBits m 0 = 0 := by
  induction m with
  | zero => rfl
  | succ m ih => simpa [revBits] using ih

theorem revBits_two_mul (m c : Nat) : revBits (m + 1) (2 * c) = revBits m c := by simp [revBits]

theorem revBits_two_mul_add_one (m c : Nat) : revBits (m + 1) (2 * c + 1) = 2 ^ m + revBits m c := by
  simp [revBits, Nat.mul_add_div]

/-- R68: reversal is its own inverse on the indices it acts on. -/
theorem revBits_revBits {m i : Nat} (hi : i < 2 ^ m) : revBits m (revBits m i) = i := by
  refine Nat.eq_of_testBit_eq fun b => ?_
  rcases lt_or_ge b m with hb | hb
  · have hback : m - 1 - (m - 1 - b) = b := Nat.sub_sub_self (Nat.le_sub_one_of_lt hb)
    rw [testBit_revBits _ hb, testBit_revBits _ (Nat.sub_one_sub_lt_of_lt hb), hback]
  · have hle : 2 ^ m ≤ 2 ^ b := Nat.pow_le_pow_right two_pos hb
    rw [Nat.testBit_eq_false_of_lt ((revBits_lt m _).trans_le hle), Nat.testBit_eq_false_of_lt (hi.trans_le hle)]

/-! ### The cursor (R63, R65) -/

/-- The carry loop advances a reversed number by one: a leading 1 is taken off and carried to the next lower digit,
as adding 1 carries upwards in the number itself. -/
theorem carry_revBits (fuel : Nat) {m i : Nat} (hi : i + 1 < 2 ^ (m + 1)) :
    (carry (fuel + m + 1) (revBits (m + 1) i) (2 ^ m)).1 + (carry (fuel + m + 1) (revBits (m + 1) i) (2 ^ m)).2 =
      revBits (m + 1) (i + 1) := by
  induction m generalizing i with
  | zero =>
    obtain rfl : i = 0 := by simpa using hi
    simp [carry, revBits]
  | succ m ih =>
    obtain ⟨c, rfl | rfl⟩ := Nat.even_or_odd' i
    · rw [revBits_two_mul, revBits_two_mul_add_one, carry, if_neg (revBits_lt (m + 1) c).not_ge, add_comm]
    · have hc : c + 1 < 2 ^ (m + 1) := Nat.lt_of_mul_lt_mul_left (a := 2) (by rwa [← pow_succ'])
      rw [revBits_two_mul_add_one, show 2 * c + 1 + 1 = 2 * (c + 1) from rfl, revBits_two_mul, carry,
        if_pos (Nat.le_add_right _ _), Nat.add_sub_cancel_left, two_pow_succ_half]
      exact ih hc

/-- R65: after the turns 1 to n the cursor is the reversal of n + 1, whatever the samples. -/
theorem cursor_foldl_bitRevStep {m n : Nat} (x : Samples) (hm : m ≤ 16) (hn : n + 1 < 2 ^ m) :
    ((List.range' 1 n).foldl (bitRevStep (2 ^ m)) (2 ^ m / 2, x)).1 = revBits m (n + 1) := by
  cases m with
  | zero => simp at hn
  | succ m =>
    induction n with
    | zero => simp [revBits, revBits_zero, two_pow_succ_half]
    | succ n ih =>
      obtain ⟨fuel, hfuel⟩ := Nat.exists_eq_add_of_le' (show m + 1 ≤ 32 from hm.trans (by decide))
      rw [List.range'_1_concat, List.foldl_concat, bitRevStep]
      dsimp only
      rw [ih (Nat.lt_of_succ_lt hn), two_pow_succ_half, hfuel]
      exact carry_revBits fuel hn

/-! ### The swaps (R63, R66) -/

/-- The turn at index i swaps exactly the pair of an index and its reversal whose smaller one is i. -/
theorem point_bitRevStep {m i k : Nat} (y : Samples) (hi : i < 2 ^ m) (hk : k < 2 ^ m) :
    (bitRevStep (2 ^ m) (revBits m i, y) i).2.point k =
      if min k (revBits m k) = i then y.point (revBits m k) else y.point k := by
  dsimp only [bitRevStep]
  rcases eq_or_ne k i with rfl | hlow
  · rcases lt_trichotomy k (revBits m k) with h | h | h
    · rw [if_pos h, if_pos (min_eq_left h.le), point_swapPoints, if_neg h.ne, if_pos rfl]
    · rw [if_neg h.not_lt, ← h, ite_self]
    · rw [if_neg h.not_gt, if_neg (min_eq_left_iff.not.mpr h.not_ge)]
  · rcases eq_or_ne (revBits m k) i with rfl | hhigh
    · rw [revBits_revBits hk]
      rcases hlow.lt_or_gt with h | h
      · rw [if_neg h.not_gt, if_neg (min_eq_right_iff.not.mpr h.not_ge)]
      · rw [if_pos h, if_pos (min_eq_right h.le), point_swapPoints, if_pos rfl]
    · have hmin : min k (revBits m k) ≠ i := by
        rcases min_choice k (revBits m k) with h | h <;> rwa [h]
      have hne : k ≠ revBits m i := fun h => hhigh (by rw [h, revBits_revBits hi])
      rw [if_neg hmin]
      split_ifs
      · rw [point_swapPoints, if_neg hne, if_neg hlow]
      · rfl

/-- After the turns 1 to n the samples of every pair whose smaller index is at most n have changed places. -/
theorem point_foldl_bitRevStep {m n k : Nat} (x : Samples) (hm : m ≤ 16) (hn : n + 1 < 2 ^ m) (hk : k < 2 ^ m) :
    ((List.range' 1 n).foldl (bitRevStep (2 ^ m)) (2 ^ m / 2, x)).2.point k =
      if min k (revBits m k) ≤ n then x.point (revBits m k) else x.point k := by
  induction n generalizing k with
  | zero =>
    split_ifs with h
    · obtain rfl : k = 0 := by
        rcases Nat.min_eq_zero_iff.mp (Nat.le_zero.mp h) with h | h
        · exact h
        · rw [← revBits_revBits hk, h, revBits_zero]
      rw [revBits_zero]
      rfl
    · rfl
  | succ n ih =>
    have hn' := Nat.lt_of_succ_lt hn
    have hcursor := cursor_foldl_bitRevStep x hm hn'
    rw [List.range'_1_concat, List.foldl_concat]
    generalize (List.range' 1 n).foldl (bitRevStep (2 ^ m)) (2 ^ m / 2, x) = st at ih hcursor
    obtain ⟨nd, y⟩ := st
    obtain rfl : nd = revBits m (n + 1) := hcursor
    rw [add_comm 1 n, point_bitRevStep _ hn' hk, ih hn' hk, ih hn' (revBits_lt m k), revBits_revBits hk,
      min_comm (revBits m k)]
    rcases eq_or_ne (min k (revBits m k)) (n + 1) with h | h
    · rw [if_pos h, h, if_neg n.not_succ_le_self, if_pos le_rfl]
    · rw [if_neg h]
      exact if_congr (Nat.le_succ_iff.trans (or_iff_left h)).symm rfl rfl

/-- R65: the permutation moves to each index the sample of the reversed index. The one pair that no turn reaches is the
last index, which is its own reversal. -/
theorem point_bitRevBody {m k : Nat} (x : Samples) (hm : m ≤ 16) (hk : k < 2 ^ m) :
    (bitRevBody (2 ^ m) x).point k = x.point (revBits m k) := by
  rcases Nat.eq_zero_or_pos m with rfl | hpos
  · obtain rfl : k = 0 := by simpa using hk
    rfl
  · obtain ⟨n, hn⟩ := Nat.exists_eq_add_of_le' (show 2 ≤ 2 ^ m from Nat.pow_le_pow_right two_pos hpos)
    rw [bitRevBody, show 2 ^ m - 2 = n by rw [hn]; rfl, point_foldl_bitRevStep x hm (hn ▸ Nat.lt_succ_self _) hk]
    split_ifs with h
    · rfl
    · have hlast : ∀ j, n < j → j < 2 ^ m → j = n + 1 := fun j hlow hhigh =>
        le_antisymm (Nat.le_of_lt_succ (hhigh.trans_eq hn)) hlow
      obtain ⟨hk', hrev'⟩ := lt_min_iff.mp (not_le.mp h)
      rw [hlast _ hrev' (revBits_lt m k), hlast k hk' hk]

/-- R66: a sample outside the transform keeps its place. -/
theorem point_bitRevBody_of_le {m k : Nat} (x : Samples) (hm : m ≤ 16) (hk : 2 ^ m ≤ k) :
    (bitRevBody (2 ^ m) x).point k = x.point k := by
  have hkept : KeptBelow (2 ^ m) (fun y => y.point k = x.point k) := fun y c i w hi hy => by
    refine .trans (Prod.ext ?_ ?_) hy <;> exact Samples.get_set_other y w fun h => (hi.trans_le hk).ne' h.2
  exact hkept.bitRevBody rfl hm

end Sys2Proof.Machine

namespace Sys2Proof.Proofs

open Sys2Proof.Machine

/-- Settles O23: the loop's turns before index i are those from 1 to i - 1. -/
theorem cursorIsReversedIndex : Obligations.CursorIsReversedIndex := by
  intro m x i _ hm' hi hi'
  obtain ⟨n, rfl⟩ : ∃ n, i = n + 1 := Nat.exists_eq_add_of_le' hi
  exact cursor_foldl_bitRevStep x hm' (Nat.lt_of_succ_lt hi')

/-- Settles O24: within the transform because reversal is its own inverse, and outside it nothing moves. -/
theorem bitrevIsInvolution : Obligations.BitrevIsInvolution := by
  intro m x i hm
  rcases lt_or_ge i (2 ^ m) with hi | hi
  · rw [point_bitRevBody _ hm hi, point_bitRevBody _ hm (revBits_lt m i), revBits_revBits hi]
  · rw [point_bitRevBody_of_le _ hm hi, point_bitRevBody_of_le _ hm hi]

end Sys2Proof.Proofs
end

section
/-!
The stages in closed form (42_butterfly R73 to R75): a butterfly computes its pair, a sub-band every pair of its offset,
and a stage all of them.
-/

namespace Sys2Proof.Machine

open Claims

/-! ### Pairs (R74) -/

/-- The lower index of the pair that the butterflies of stage s + 1 put index `i` in; the other is `2^s` above it. -/
def pairBase (s i : Nat) : Nat := if i % 2 ^ (s + 1) < 2 ^ s then i else i - 2 ^ s

/-- The sub-band of stage s + 1 that computes `i`, counted from 0: the offset of its pair in the groups of `2^(s+1)`. -/
def subBandOf (s i : Nat) : Nat := pairBase s i % 2 ^ (s + 1)

/-- The t of R75: the upper point of `i`'s pair times the rotation of its sub-band. -/
def rotatedPartner {α : Type} (A : Arith α) (s : Nat) (x : Nat → α) (i : Nat) : α :=
  A.mul (x (pairBase s i + 2 ^ s)) (rotation A (s + 1) (subBandOf s i))

variable {m s i k : Nat}

theorem pairBase_of_lt (h : i % 2 ^ (s + 1) < 2 ^ s) : pairBase s i = i := if_pos h

/-- An index is the lower or the upper one of its pair. -/
theorem pairBase_cases (s i : Nat) :
    (i % 2 ^ (s + 1) < 2 ^ s ∧ i = pairBase s i) ∨
      (2 ^ s ≤ i % 2 ^ (s + 1) ∧ i = pairBase s i + 2 ^ s ∧ i % 2 ^ (s + 1) = subBandOf s i + 2 ^ s) := by
  rcases lt_or_ge (i % 2 ^ (s + 1)) (2 ^ s) with h | h
  · exact .inl ⟨h, (pairBase_of_lt h).symm⟩
  · rw [subBandOf, pairBase, if_neg h.not_gt, ← Nat.mod_sub_of_le h]
    exact .inr ⟨h, (Nat.sub_add_cancel (h.trans (Nat.mod_le _ _))).symm, (Nat.sub_add_cancel h).symm⟩

theorem subBandOf_congr (h : pairBase s i = pairBase s k) : subBandOf s i = subBandOf s k :=
  congrArg (· % 2 ^ (s + 1)) h

theorem pairBase_le (s i : Nat) : pairBase s i ≤ i := by
  rcases pairBase_cases s i with ⟨-, h⟩ | ⟨-, h, -⟩
  · exact h.ge
  · exact (Nat.le_add_right _ _).trans h.ge

theorem subBandOf_lt (s i : Nat) : subBandOf s i < 2 ^ s := by
  rcases pairBase_cases s i with ⟨h, hi⟩ | ⟨-, -, hmod⟩
  · rwa [subBandOf, ← hi]
  · have hlt := Nat.mod_lt i (Nat.two_pow_pos (s + 1))
    exact Nat.lt_of_add_lt_add_right (hmod.symm.trans_lt (hlt.trans_eq (Nat.two_pow_succ s)))

@[simp] theorem pairBase_pairBase (s i : Nat) : pairBase s (pairBase s i) = pairBase s i :=
  pairBase_of_lt (subBandOf_lt s i)

/-- The upper index of a pair has the lower one as its base. -/
theorem pairBase_add (hk : pairBase s k = k) : pairBase s (k + 2 ^ s) = k := by
  have hlt : k % 2 ^ (s + 1) < 2 ^ s := by simpa only [subBandOf, hk] using subBandOf_lt s k
  have hhalf : 2 ^ s % 2 ^ (s + 1) = 2 ^ s := Nat.mod_eq_of_lt (Nat.pow_lt_pow_succ one_lt_two)
  have hsum : k % 2 ^ (s + 1) + 2 ^ s < 2 ^ (s + 1) := (Nat.add_lt_add_right hlt _).trans_eq (Nat.two_pow_succ s).symm
  have hmod : (k + 2 ^ s) % 2 ^ (s + 1) = k % 2 ^ (s + 1) + 2 ^ s := by
    rw [Nat.add_mod_of_add_mod_lt (by rwa [hhalf]), hhalf]
  rw [pairBase, hmod, if_neg (Nat.le_add_left _ _).not_gt, Nat.add_sub_cancel]

/-- The next pair of the same sub-band lies one group further. -/
theorem pairBase_add_group (hk : pairBase s k = k) : pairBase s (k + 2 ^ (s + 1)) = k + 2 ^ (s + 1) := by
  refine pairBase_of_lt ?_
  rw [Nat.add_mod_right]
  simpa only [subBandOf, hk] using subBandOf_lt s k

theorem subBandOf_add_group (hk : pairBase s k = k) : subBandOf s (k + 2 ^ (s + 1)) = subBandOf s k := by
  rw [subBandOf, subBandOf, pairBase_add_group hk, hk, Nat.add_mod_right]

theorem pairBase_eq_iff (hk : pairBase s k = k) : pairBase s i = k ↔ i = k ∨ i = k + 2 ^ s := by
  constructor
  · rintro rfl
    exact (pairBase_cases s i).imp And.right fun h => h.2.1
  · rintro (rfl | rfl)
    · exact hk
    · exact pairBase_add hk

/-- Both points of a pair lie within the transform. -/
theorem pairBase_add_lt (hs : s < m) (hi : i < 2 ^ m) : pairBase s i + 2 ^ s < 2 ^ m := by
  have hbase : pairBase s i % 2 ^ (s + 1) < 2 ^ (s + 1) / 2 := (subBandOf_lt s i).trans_eq (two_pow_succ_half s).symm
  simpa only [two_pow_succ_half] using partner_lt (s := s + 1) hs ((pairBase_le s i).trans_lt hi) hbase

section
variable {α : Type} (A : Arith α)

/-- R75 by pairs: the lower index gets the sum and the upper one the difference. -/
theorem stageAt_eq (s : Nat) (x : Nat → α) (i : Nat) :
    stageAt A (s + 1) x i =
      if i = pairBase s i then A.add (x (pairBase s i)) (rotatedPartner A s x i)
      else A.sub (x (pairBase s i)) (rotatedPartner A s x i) := by
  rw [rotatedPartner]
  rcases pairBase_cases s i with ⟨hlt, hi⟩ | ⟨hge, hi, hmod⟩
  · rw [if_pos hi, subBandOf, ← hi]
    exact if_pos hlt
  · have hne : i ≠ pairBase s i := ((Nat.lt_add_of_pos_right (Nat.two_pow_pos s)).trans_eq hi.symm).ne'
    rw [if_neg hne, ← hi, ← Nat.sub_eq_of_eq_add hmod, ← Nat.sub_eq_of_eq_add hi]
    exact if_neg hge.not_gt

/-- A stage reads only the pair it writes. -/
theorem stageAt_congr {x y : Nat → α} (hlow : x (pairBase s i) = y (pairBase s i))
    (hhigh : x (pairBase s i + 2 ^ s) = y (pairBase s i + 2 ^ s)) :
    stageAt A (s + 1) x i = stageAt A (s + 1) y i := by
  rw [stageAt_eq, stageAt_eq, rotatedPartner, rotatedPartner, hlow, hhigh]

end

/-! ### Butterflies and sub-bands (R70, R71, R73) -/

/-- A butterfly leaves the points of every other pair. -/
theorem point_bfly_of_pairBase_ne (x : Samples) (w : Word × Word) (hk : pairBase s k = k) (hi : pairBase s i ≠ k) :
    (bfly x k (k + 2 ^ s) w).point i = x.point i := by
  obtain ⟨hlow, hhigh⟩ := not_or.mp ((pairBase_eq_iff hk).not.mp hi)
  rw [point_bfly, if_neg hlow, if_neg hhigh]

/-- And so what the stage makes of them. -/
theorem stageAt_bfly_of_pairBase_ne (x : Samples) (w : Word × Word) (hk : pairBase s k = k) (hi : pairBase s i ≠ k) :
    stageAt binary32 (s + 1) (bfly x k (k + 2 ^ s) w).point i = stageAt binary32 (s + 1) x.point i := by
  have hbase := pairBase_pairBase s i
  exact stageAt_congr _ (point_bfly_of_pairBase_ne x w hk (by rwa [hbase]))
    (point_bfly_of_pairBase_ne x w hk (by rwa [pairBase_add hbase]))

/-- A butterfly with the rotation of its sub-band leaves the stage's values at its pair. -/
theorem point_bfly_eq_stageAt (x : Samples) (hk : pairBase s k = k) (hi : pairBase s i = k) :
    (bfly x k (k + 2 ^ s) (rotation binary32 (s + 1) (subBandOf s k))).point i =
      stageAt binary32 (s + 1) x.point i := by
  rw [point_bfly, stageAt_eq, rotatedPartner, subBandOf_congr (hi.trans hk.symm), hi]
  rcases (pairBase_eq_iff hk).mp hi with rfl | rfl
  · rw [if_pos rfl, if_pos rfl]
    rfl
  · have hne : k + 2 ^ s ≠ k := (Nat.lt_add_of_pos_right (Nat.two_pow_pos s)).ne'
    rw [if_neg hne, if_pos rfl, if_neg hne]
    rfl

/-- The inner loop from `k` on leaves the stage's values at every pair of `k`'s sub-band that it has not passed. -/
theorem point_subBandLoop {fuel : Nat} (x : Samples) (i : Nat) (hs : s < m) (hk : pairBase s k = k)
    (hfuel : 2 ^ m ≤ k + fuel) :
    (subBandLoop (2 ^ m) (2 ^ (s + 1)) (2 ^ s) (rotation binary32 (s + 1) (subBandOf s k)) fuel k x).point i =
      if k ≤ pairBase s i ∧ pairBase s i < 2 ^ m ∧ subBandOf s i = subBandOf s k then
        stageAt binary32 (s + 1) x.point i
      else x.point i := by
  have hpos := Nat.two_pow_pos (s + 1)
  induction fuel generalizing k x with
  | zero => exact (if_neg fun h => (hfuel.trans h.1).not_gt h.2.1).symm
  | succ fuel ih =>
    unfold subBandLoop
    rcases lt_or_ge k (2 ^ m) with hin | hout
    · have hpartner := pairBase_add_lt hs hin
      rw [hk] at hpartner
      have hturn : k + 1 < 2 ^ m := (Nat.add_le_add_left (Nat.two_pow_pos s) k).trans_lt hpartner
      have hfuel' : 2 ^ m ≤ k + 2 ^ (s + 1) + fuel :=
        hfuel.trans ((Nat.add_le_add_left hpos (k + fuel)).trans_eq (Nat.add_right_comm k fuel _))
      have hrest := fun y => ih y (pairBase_add_group hk) hfuel'
      rw [subBandOf_add_group hk] at hrest
      rw [if_pos (show k + 2 ≤ 2 ^ m from hturn), hrest]
      by_cases hi : pairBase s i = k
      · rw [if_neg fun h => (Nat.lt_add_of_pos_right hpos).not_ge (h.1.trans_eq hi), point_bfly_eq_stageAt x hk hi,
          if_pos ⟨hi.ge, hi.trans_lt hin, subBandOf_congr (hi.trans hk.symm)⟩]
      · rw [stageAt_bfly_of_pairBase_ne x _ hk hi, point_bfly_of_pairBase_ne x _ hk hi]
        refine if_congr ⟨?_, ?_⟩ rfl rfl
        · rintro ⟨hle, hrange⟩
          exact ⟨(Nat.le_add_right _ _).trans hle, hrange⟩
        · rintro ⟨hle, hlt, hoffset⟩
          have hmod : k ≡ pairBase s i [MOD 2 ^ (s + 1)] := by
            rw [subBandOf, subBandOf, hk] at hoffset
            exact hoffset.symm
          exact ⟨hmod.add_le_of_lt (lt_of_le_of_ne hle (Ne.symm hi)), hlt, hoffset⟩
    · rw [if_neg (hout.trans_lt (Nat.lt_add_of_pos_right two_pos)).not_ge,
        if_neg fun h => (hout.trans h.1).not_gt h.2.1]

/-- After the sub-bands 1 to n the rotation is that of the next one, and the pairs of the first n sub-bands hold the
stage's values. -/
theorem foldl_subBand {n : Nat} (x : Samples) (hs : s < m) (hn : n ≤ 2 ^ s) :
    ((List.range' 1 n).foldl (subBand (2 ^ m) (s + 1)) (unitRotation, x)).1 = rotation binary32 (s + 1) n ∧
      ∀ i, ((List.range' 1 n).foldl (subBand (2 ^ m) (s + 1)) (unitRotation, x)).2.point i =
        if pairBase s i < 2 ^ m ∧ subBandOf s i < n then stageAt binary32 (s + 1) x.point i else x.point i := by
  induction n with
  | zero => exact ⟨rfl, fun i => (if_neg fun h => Nat.not_lt_zero _ h.2).symm⟩
  | succ n ih =>
    obtain ⟨hrot, hpoint⟩ := ih (Nat.le_of_succ_le hn)
    have hmod : n % 2 ^ (s + 1) = n := Nat.mod_eq_of_lt (lt_trans hn (Nat.pow_lt_pow_succ one_lt_two))
    have hbase : pairBase s n = n := pairBase_of_lt (hmod.trans_lt hn)
    have hself : subBandOf s n = n := by rw [subBandOf, hbase, hmod]
    rw [List.range'_1_concat, List.foldl_concat, subBand, two_pow_succ_half, Nat.add_sub_cancel_left]
    generalize (List.range' 1 n).foldl (subBand (2 ^ m) (s + 1)) (unitRotation, x) = st at hrot hpoint
    refine ⟨by rw [hrot]; rfl, fun i => ?_⟩
    have hloop := point_subBandLoop st.2 i hs hbase (Nat.le_add_left _ _)
    rw [hself] at hloop
    rw [hrot, hloop, hpoint i]
    by_cases hoffset : subBandOf s i = n
    · have hnot : ¬(pairBase s i < 2 ^ m ∧ subBandOf s i < n) := fun h => h.2.ne hoffset
      have hbase' := pairBase_pairBase s i
      have huntouched : stageAt binary32 (s + 1) st.2.point i = stageAt binary32 (s + 1) x.point i := by
        refine stageAt_congr _ ?_ ?_
        · rw [hpoint, subBandOf_congr hbase', hbase', if_neg hnot]
        · rw [hpoint, subBandOf_congr (pairBase_add hbase'), pairBase_add hbase', if_neg hnot]
      rw [huntouched, if_neg hnot]
      exact if_congr ⟨fun h => ⟨h.2.1, hoffset.trans_lt n.lt_succ_self⟩,
        fun h => ⟨hoffset.ge.trans (Nat.mod_le _ _), h.1, hoffset⟩⟩ rfl rfl
    · rw [if_neg fun h => hoffset h.2.2]
      exact if_congr (and_congr_right' (Nat.lt_succ_iff_lt_or_eq.trans (or_iff_left hoffset)).symm) rfl rfl

/-- R75: a stage leaves its closed form at every index of the transform. -/
theorem point_stageBody (x : Samples) (hs : 1 ≤ s) (hsm : s ≤ m) (hi : i < 2 ^ m) :
    (stageBody (2 ^ m) s x).point i = stageAt binary32 s x.point i := by
  obtain ⟨s, rfl⟩ : ∃ n, s = n + 1 := Nat.exists_eq_add_of_le' hs
  obtain ⟨-, hpoint⟩ := foldl_subBand x hsm le_rfl
  rw [stageBody, two_pow_succ_half, hpoint, if_pos ⟨(pairBase_le s i).trans_lt hi, subBandOf_lt s i⟩]

/-! ### Stages (R73, R78) -/

/-- R73: the stages 1 to n leave their closed forms, whatever the points outside the transform hold. -/
theorem point_stagesBody {n : Nat} {x : Samples} {f : Nat → Word × Word} (hn : n ≤ m)
    (hx : ∀ i < 2 ^ m, x.point i = f i) :
    ∀ i < 2 ^ m, (stagesBody (2 ^ m) n x).point i = stagesAt binary32 n f i := by
  induction n with
  | zero => exact hx
  | succ n ih =>
    intro i hi
    have hin := pairBase_add_lt hn hi
    have hrest := ih (Nat.le_of_succ_le hn)
    rw [stagesBody, stagesAt, List.range'_1_concat, List.foldl_concat, List.foldl_concat, add_comm 1 n,
      point_stageBody _ (Nat.le_add_left 1 n) hn hi]
    exact stageAt_congr _ (hrest _ ((Nat.le_add_right _ _).trans_lt hin)) (hrest _ hin)

/-- R78: the stages on the permuted samples. -/
theorem point_fftBody (x : Samples) (hm : m ≤ 16) (hi : i < 2 ^ m) :
    (fftBody (2 ^ m) m x).point i = fftAt binary32 m x.point i :=
  point_stagesBody le_rfl (fun _ hj => point_bitRevBody x hm hj) i hi

end Sys2Proof.Machine
end

section
/-!
The permutation and the transform as commands (41_permutation R64, 42_butterfly R78): acceptance, completion, and what
they leave.
-/

namespace Sys2Proof.Machine

open Claims

/-- Lengths that let a command through are within the largest build (00_scope R3). -/
theorem le_sixteen_of_lengthsAre {s : State} {m : Nat} (h : LengthsAre s m) : m ≤ 16 := by
  obtain ⟨-, -, hle⟩ := h
  exact hle.trans (Nat.le_of_lt_succ s.log2NMax.isLt)

/-- A command that passes its checks is accepted, and its completion applies its effect and changes nothing else a
statement speaks of (40_command R56, R58). -/
theorem accepted_then_completed {s : State} {m k : Nat} {op : BitVec 4} {i : Instr} (hb : s.status.busy = false)
    (hlen : LengthsAre s m) (hi : RunsAt m i) (hlatch : latchOf i = (op, BitVec.ofNat 5 k)) :
    exec i s = .next (accepted op k m s) ∧
      ∃ u, engineCompletes (accepted op k m s) = .next u ∧ CompletedFrom (accepted op k m s) u (2 ^ m) ∧
        u.samples = commandEffect m i s.samples := by
  have he := commandError_eq_none hlen hi
  have hlatches := latchesConsistent_accept hi.1 he
  have heffect := effect_accept hlen hi
  obtain ⟨-, hlog, -⟩ := hlen
  have hacc : accept (latchOf i).1 (latchOf i).2 s = accepted op k m s := by
    rw [hlatch, ← log2_of_toNat hlog]
    rfl
  rw [hacc] at hlatches heffect
  have hdone : engineCompletes (accepted op k m s) = .next _ := if_pos hlatches
  obtain ⟨-, hframe⟩ := Proofs.completionFrame _ _ hdone
  refine ⟨by rw [exec_eq_submit hi.1, he, submit_idle_none hb, hacc], _, hdone, hlog ▸ hframe rfl, heffect⟩

end Sys2Proof.Machine

namespace Sys2Proof.Proofs

open Sys2Proof Sys2Proof.Machine Sys2Proof.Claims

/-- Settles O15: the loop's swaps, each of an index and its reversal, move whole samples. -/
theorem bitrevReversesIndices : Obligations.BitrevReversesIndices := by
  intro s m hb hlen
  have hm := le_sixteen_of_lengthsAre hlen
  obtain ⟨haccept, u, hdone, hframe, hu⟩ := accepted_then_completed (i := .bitrev) hb hlen (by simp [RunsAt]) rfl
  exact ⟨haccept, u, hdone, hframe, fun i hi => hu ▸ point_bitRevBody _ hm hi⟩

/-- Settles O18: the permutation's closed form, then each stage's. -/
theorem fftComputesTransform : Obligations.FftComputesTransform := by
  intro s m hb hlen
  have hm := le_sixteen_of_lengthsAre hlen
  obtain ⟨haccept, u, hdone, hframe, hu⟩ := accepted_then_completed (i := .fft) hb hlen (by simp [RunsAt]) rfl
  exact ⟨haccept, u, hdone, hframe, fun i hi => hu ▸ point_fftBody _ hm hi⟩

end Sys2Proof.Proofs
end

section
/-!
The butterfly stages as commands (42_butterfly R76, R77): acceptance, completion, and the closed forms they leave.
-/

namespace Sys2Proof.Proofs

open Sys2Proof Sys2Proof.Machine Sys2Proof.Claims

/-- Settles O16: the stage's pairs are disjoint, so each butterfly leaves the closed form at its own. -/
theorem stageComputesClosedForm : Obligations.StageComputesClosedForm := by
  intro s m k hb hlen hk hkm
  have hruns : RunsAt m (.stage k) := ⟨nofun, by rintro _ ⟨⟩; exact ⟨hk, hkm⟩⟩
  obtain ⟨haccept, u, hdone, hframe, hu⟩ := accepted_then_completed hb hlen hruns rfl
  exact ⟨haccept, u, hdone, hframe, fun i hi => hu ▸ point_stageBody _ hk hkm hi⟩

/-- Settles O17: each stage's closed form in turn, on what the stages before it left. -/
theorem stagesComputeAllStages : Obligations.StagesComputeAllStages := by
  intro s m hb hlen
  obtain ⟨haccept, u, hdone, hframe, hu⟩ := accepted_then_completed (i := .stages) hb hlen (by simp [RunsAt]) rfl
  exact ⟨haccept, u, hdone, hframe, hu ▸ point_stagesBody le_rfl fun _ _ => rfl⟩

end Sys2Proof.Proofs
end

section
/-!
Sums and products in either order of the operands (42_butterfly R69).
-/

namespace Sys2Proof.Machine.F32

theorem isInf_or_isFinite {a : Word} (h : isNaN a ≠ true) : isInf a = true ∨ isFinite a = true := by
  rw [Ne, isNaN_iff] at h
  rw [isInf_iff, isFinite_iff]
  tauto

/-- R9: only two infinities of the same sign are returned as an operand, and these are one pattern. -/
theorem fadd_comm (a b : Word) : fadd a b = fadd b a := by
  by_cases hnan : isNaN a = true ∨ isNaN b = true
  · rw [fadd_of_isNaN hnan, fadd_of_isNaN hnan.symm]
  obtain ⟨ha, hb⟩ := not_or.mp hnan
  rcases isInf_or_isFinite ha with ha | ha <;> rcases isInf_or_isFinite hb with hb | hb
  · by_cases h : a = b
    · rw [h]
    · rw [fadd_inf_of_sign_ne ha hb (sign_ne_of_isInf_of_ne ha hb h),
        fadd_inf_of_sign_ne hb ha (sign_ne_of_isInf_of_ne hb ha (Ne.symm h))]
  · rw [fadd_inf_finite ha hb, fadd_finite_inf hb ha]
  · rw [fadd_finite_inf ha hb, fadd_inf_finite hb ha]
  · have hsum := add_comm (value a) (value b)
    by_cases h : value a + value b = 0
    · rw [fadd_of_value_add_eq_zero ha hb h, fadd_of_value_add_eq_zero hb ha (hsum ▸ h)]
      exact if_congr and_comm rfl rfl
    · rw [fadd_of_value_add_ne_zero ha hb h, fadd_of_value_add_ne_zero hb ha (hsum ▸ h), hsum]

/-- R11: every test and the rounded product are symmetric. -/
theorem fmul_comm (a b : Word) : fmul a b = fmul b a := by
  rw [fmul, fmul, Bool.or_comm (isNaN a), Bool.or_comm (isInf a && _), Bool.and_comm (isInf a),
    Bool.and_comm (isZero a), Bool.or_comm (isInf a), bne_comm, mul_comm (magnitude a)]

end Sys2Proof.Machine.F32

namespace Sys2Proof.Proofs

open Sys2Proof.Machine

/-- Settles O36: the rule of R9 and R11 for a pair of classes does not depend on the order of the operands. -/
theorem sumsAndProductsCommute : Obligations.SumsAndProductsCommute := fun a b =>
  ⟨F32.fadd_comm a b, F32.fmul_comm a b⟩

end Sys2Proof.Proofs
end

section
/-!
The reference stages in any arithmetic (42_butterfly R73, R75): one after another, what they read, and
the same stages on samples further up.
-/

namespace Sys2Proof.Machine

open Claims

variable {α : Type} (A : Arith α) {m n i : Nat}

theorem stagesAt_succ (n : Nat) (x : Nat → α) : stagesAt A (n + 1) x = stageAt A (n + 1) (stagesAt A n x) := by
  rw [stagesAt, List.range'_1_concat, List.foldl_concat, add_comm 1 n]
  rfl

/-- At the first index of a group a stage adds the start of the group's second half, with the unit rotation
(R72). -/
theorem stageAt_of_mod_eq_zero (x : Nat → α) (h : i % 2 ^ (n + 1) = 0) :
    stageAt A (n + 1) x i = A.add (x i) (A.mul (x (i + 2 ^ n)) A.one) := by
  rw [stageAt, h]
  exact if_pos (Nat.two_pow_pos n)

/-- Stages no longer than `2 ^ m` do the same to samples that lie `2 ^ m` further. -/
theorem stageAt_add (hn : n ≤ m) (x : Nat → α) (i : Nat) :
    stageAt A n x (i + 2 ^ m) = stageAt A n (fun j => x (j + 2 ^ m)) i := by
  have hmod : (i + 2 ^ m) % 2 ^ n = i % 2 ^ n := by
    rw [Nat.add_mod, Nat.mod_eq_zero_of_dvd (pow_dvd_pow 2 hn), add_zero, Nat.mod_mod]
  simp only [stageAt, hmod]
  split_ifs with h
  · rw [add_right_comm]
  · have hle := (not_lt.mp h).trans (Nat.mod_le i _)
    rw [Nat.sub_add_comm hle]

theorem stagesAt_add (hn : n ≤ m) (x : Nat → α) (i : Nat) :
    stagesAt A n x (i + 2 ^ m) = stagesAt A n (fun j => x (j + 2 ^ m)) i := by
  induction n generalizing i with
  | zero => rfl
  | succ n ih =>
    have hrest : (fun j => stagesAt A n x (j + 2 ^ m)) = stagesAt A n fun j => x (j + 2 ^ m) :=
      funext (ih (Nat.le_of_succ_le hn))
    rw [stagesAt_succ, stagesAt_succ, stageAt_add A hn, hrest]

/-- The stages up to length `2 ^ m` read nothing outside the first `2 ^ m` samples. -/
theorem stagesAt_congr {x y : Nat → α} (hn : n ≤ m) (h : ∀ i < 2 ^ m, x i = y i) :
    ∀ i < 2 ^ m, stagesAt A n x i = stagesAt A n y i := by
  induction n with
  | zero => exact h
  | succ n ih =>
    intro i hi
    have hin := pairBase_add_lt hn hi
    have hrest := ih (Nat.le_of_succ_le hn)
    rw [stagesAt_succ, stagesAt_succ]
    exact stageAt_congr A (hrest _ ((Nat.le_add_right _ _).trans_lt hin)) (hrest _ hin)

end Sys2Proof.Machine
end

section
/-!
The sums at index 0 (42_butterfly R81): rounding an exact binary32 value gives it back, so the unit rotation leaves real
samples as they are.
-/

namespace Sys2Proof.Machine.F32

/-! ### Exact results (R8) -/

/-- Magnitudes grow with the exponent field. -/
theorem magnitude_lt_of_expField_lt {a b : Word} (h : expField a < expField b) : magnitude a < magnitude b := by
  have hf := fracField_lt a
  have hb : 2 ^ 23 * 2 ^ (expField b - 1) ≤ magnitude b := by
    rw [magnitude, if_neg (Nat.zero_lt_of_lt h).ne']
    exact Nat.mul_le_mul_right _ (Nat.le_add_right _ _)
  refine lt_of_lt_of_le ?_ hb
  rw [magnitude]
  split_ifs with h0
  · exact hf.trans_le (Nat.le_mul_of_pos_right _ (Nat.two_pow_pos _))
  · calc (2 ^ 23 + fracField a) * 2 ^ (expField a - 1)
      _ < 2 ^ 23 * 2 * 2 ^ (expField a - 1) := Nat.mul_lt_mul_of_pos_right (by omega) (Nat.two_pow_pos _)
      _ = 2 ^ 23 * 2 ^ (expField a - 1 + 1) := by rw [mul_assoc, ← pow_succ']
      _ ≤ 2 ^ 23 * 2 ^ (expField b - 1) := Nat.mul_le_mul_left _ (Nat.pow_le_pow_right two_pos (by omega))

/-- The sign and the magnitude say the whole pattern. -/
theorem eq_of_magnitude_eq {a b : Word} (hs : sign a = sign b) (hm : magnitude a = magnitude b) : a = b := by
  have he : expField a = expField b := by
    rcases Nat.lt_trichotomy (expField a) (expField b) with h | h | h
    · exact absurd hm (magnitude_lt_of_expField_lt h).ne
    · exact h
    · exact absurd hm (magnitude_lt_of_expField_lt h).ne'
  refine eq_of_fields hs he ?_
  rw [magnitude, magnitude, he] at hm
  split_ifs at hm
  · exact hm
  · exact Nat.add_left_cancel (Nat.eq_of_mul_eq_mul_right (Nat.two_pow_pos _) hm)

/-- There is one zero of each sign (R7). -/
theorem eq_zero_of_magnitude_eq_zero {a : Word} (h : magnitude a = 0) : a = 0x00000000 ∨ a = 0x80000000 := by
  cases hs : sign a
  · exact .inl (eq_of_magnitude_eq hs h)
  · exact .inr (eq_of_magnitude_eq hs h)

theorem magnitude_le_of_isFinite {a : Word} (ha : isFinite a = true) : magnitude a ≤ (2 ^ 24 - 1) * 2 ^ 253 := by
  have hf := fracField_lt a
  have hE : expField a < 2 ^ 8 := (a.extractLsb' 23 8).isLt
  have hfin := (isFinite_iff a).mp ha
  rw [magnitude]
  split_ifs with h0
  · exact hf.le.trans (by norm_num)
  · exact Nat.mul_le_mul (by omega) (Nat.pow_le_pow_right two_pos (by omega))

/-- RN32 of the value of a finite pattern is that pattern, the sign of a zero included. -/
theorem rn32_magnitude {a : Word} (ha : isFinite a = true) {num den : Nat} (hden : 0 < den)
    (h : num * 2 ^ 149 = magnitude a * den) : rn32 (sign a) num den = a := by
  rcases Nat.eq_zero_or_pos num with rfl | hnum
  · rw [zero_mul, eq_comm, Nat.mul_eq_zero] at h
    rcases eq_zero_of_magnitude_eq_zero (h.resolve_right hden.ne') with rfl | rfl <;> rfl
  · have hrange : num < (2 ^ 128 - 2 ^ 103) * den := by
      have hle := Nat.mul_le_mul_right den (magnitude_le_of_isFinite ha)
      omega
    have hr := rn32_encodes (sign a) hnum hden hrange
    have hnear := (quantumCount_nearest hnum hden a).1
    refine eq_of_magnitude_eq hr.sign (Nat.eq_of_mul_eq_mul_right hden ?_)
    rw [hr.magnitude]
    omega

/-! ### Sums and products with 0 and 1 -/

theorem fmul_one {a : Word} (ha : isFinite a = true) : fmul a 0x3F800000 = a := by
  have hsign : (sign a != sign 0x3F800000) = sign a := Bool.bne_false _
  have hone : magnitude 0x3F800000 = 2 ^ 149 := rfl
  rw [fmul_of_isFinite ha rfl, hsign, Int.natAbs_mul, natAbs_value, natAbs_value, hone]
  exact rn32_magnitude ha (by positivity) (by rw [mul_assoc, ← pow_add])

theorem fmul_zero {a : Word} (ha : isFinite a = true) : fmul a 0x00000000 = zero (sign a) := by
  have hsign : (sign a != sign 0x00000000) = sign a := Bool.bne_false _
  have hzero : value 0x00000000 = 0 := rfl
  rw [fmul_of_isFinite ha rfl, hsign, hzero, mul_zero]
  rfl

theorem decide_value_neg {a : Word} (h : value a ≠ 0) : decide (value a < 0) = sign a := by
  have hmag : 0 < magnitude a := natAbs_value a ▸ Int.natAbs_pos.mpr h
  cases hs : sign a
  · exact decide_eq_false (by simp [value, hs])
  · exact decide_eq_true (by simpa [value, hs] using hmag)

/-- R10: subtracting +0 changes no finite pattern, -0 included. -/
theorem fsub_zero {a : Word} (ha : isFinite a = true) : fsub a 0x00000000 = a := by
  have hneg : fneg 0x00000000 = 0x80000000 := rfl
  have hzero : value 0x80000000 = 0 := rfl
  have hsum : value a + value 0x80000000 = value a := by rw [hzero, add_zero]
  rw [fsub, hneg]
  by_cases h : value a = 0
  · rw [fadd_of_value_add_eq_zero ha rfl (hsum.trans h)]
    have hmag : magnitude a = 0 := (natAbs_value a).symm.trans (Int.natAbs_eq_zero.mpr h)
    rcases eq_zero_of_magnitude_eq_zero hmag with rfl | rfl <;> rfl
  · rw [fadd_of_value_add_ne_zero ha rfl (by rwa [hsum]), hsum, natAbs_value, decide_value_neg h]
    exact rn32_magnitude ha (by positivity) rfl

end Sys2Proof.Machine.F32

namespace Sys2Proof.Machine

open Claims

/-- R72, R81: the unit rotation leaves a finite real sample as it is. -/
theorem cmul_unitRotation {a : Word} (ha : F32.isFinite a = true) :
    cmul (a, 0x00000000) unitRotation = (a, 0x00000000) := by
  have hre : F32.fmul 0x00000000 0x00000000 = 0x00000000 := rfl
  have him : F32.fmul 0x00000000 0x3F800000 = 0x00000000 := rfl
  simp only [cmul, unitRotation, F32.fmul_one ha, F32.fmul_zero ha, hre, him, F32.fsub_zero ha]
  cases F32.sign a <;> rfl

theorem cadd_real (a b : Word) : cadd (a, 0x00000000) (b, 0x00000000) = (F32.fadd a b, 0x00000000) := by
  have h : F32.fadd 0x00000000 0x00000000 = 0x00000000 := rfl
  rw [cadd, h]

/-- R81: while the partial sums are finite, the stages on real samples leave at the start of each group the pairwise sum
of the group. -/
theorem stagesAt_real {m d p : Nat} {y : Nat → Word} (hd : d ≤ m) (hp : p < 2 ^ m) (hgroup : p % 2 ^ d = 0)
    {f : Nat → Word × Word} (hf : ∀ q < 2 ^ m, f q = (y q, 0x00000000))
    (hfin : ∀ d p, d ≤ m → p < 2 ^ m → p % 2 ^ d = 0 → F32.isFinite (pairSum y d p) = true) :
    stagesAt binary32 d f p = (pairSum y d p, 0x00000000) := by
  induction d generalizing p with
  | zero => exact hf p hp
  | succ d ih =>
    have hd' := Nat.le_of_succ_le hd
    have hlow : p % 2 ^ d = 0 := by
      rw [← Nat.mod_mod_of_dvd p (pow_dvd_pow 2 d.le_succ), hgroup, Nat.zero_mod]
    have hhigh : (p + 2 ^ d) % 2 ^ d = 0 := by rw [Nat.add_mod_right, hlow]
    have hbase : pairBase d p = p := pairBase_of_lt (hgroup.trans_lt (Nat.two_pow_pos d))
    have hpartner : p + 2 ^ d < 2 ^ m := by
      have := pairBase_add_lt hd hp
      rwa [hbase] at this
    have hrotated := cmul_unitRotation (hfin d (p + 2 ^ d) hd' hpartner hhigh)
    rw [stagesAt_succ, stageAt_of_mod_eq_zero _ _ hgroup, ih hd' hp hlow, ih hd' hpartner hhigh]
    exact (congrArg (cadd _) hrotated).trans (cadd_real _ _)

end Sys2Proof.Machine

namespace Sys2Proof.Proofs

open Sys2Proof Sys2Proof.Machine Sys2Proof.Claims

/-- Settles O28: index 0 starts the only group of the last stage. -/
theorem dcTermIsPairwiseSum : Obligations.DcTermIsPairwiseSum := by
  intro s m hb hlen hin hfin
  obtain ⟨u, hruns, hu⟩ := exists_runsTo (i := .fft) hb hlen (by simp [RunsAt])
  have hpoint : u.samples.point 0 = fftAt binary32 m s.samples.point 0 := by
    rw [hu.samples]
    exact point_fftBody _ (le_sixteen_of_lengthsAre hlen) (Nat.two_pow_pos m)
  have hreal : ∀ q < 2 ^ m, s.samples.point (revBits m q) = (s.samples.get .re (revBits m q), 0x00000000) :=
    fun q _ => Prod.ext rfl (hin _ (revBits_lt m q)).1
  rw [fftAt, stagesAt_real le_rfl (Nat.two_pow_pos m) (Nat.zero_mod _) hreal hfin] at hpoint
  exact ⟨u, hruns, congrArg Prod.snd hpoint, congrArg Prod.fst hpoint⟩

end Sys2Proof.Proofs
end

section
/-!
The transform in exact arithmetic (42_butterfly R79), by decimation in time.
-/

namespace Sys2Proof.Machine

open Claims

/-! ### Even and odd samples -/

/-- The digit that one more place takes in comes out lowest. -/
theorem revBits_succ (m i : Nat) : revBits (m + 1) i = 2 * revBits m i + i / 2 ^ m % 2 := by
  induction m generalizing i with
  | zero => simp [revBits]
  | succ m ih =>
    rw [revBits, ih, revBits, Nat.div_div_eq_div_mul, ← pow_succ']
    ring

/-- Digits above the reversed ones play no part. -/
theorem revBits_add_two_pow (m i : Nat) : revBits m (i + 2 ^ m) = revBits m i := by
  induction m generalizing i with
  | zero => rfl
  | succ m ih =>
    rw [revBits, revBits, pow_succ, Nat.add_mul_mod_self_right, Nat.add_mul_div_right _ _ two_pos, ih]

section
variable {α : Type} (A : Arith α) {m k : Nat}

/-- In bit-reversed order the samples of even index come first. -/
theorem stagesAt_revBits_low (x : Nat → α) (hk : k < 2 ^ m) :
    stagesAt A m (fun p => x (revBits (m + 1) p)) k = fftAt A m (fun n => x (2 * n)) k := by
  refine stagesAt_congr A le_rfl (fun i hi => ?_) k hk
  rw [revBits_succ, Nat.div_eq_of_lt hi]
  rfl

/-- And those of odd index follow. -/
theorem stagesAt_revBits_high (x : Nat → α) (hk : k < 2 ^ m) :
    stagesAt A m (fun p => x (revBits (m + 1) p)) (k + 2 ^ m) = fftAt A m (fun n => x (2 * n + 1)) k := by
  rw [stagesAt_add A le_rfl]
  refine stagesAt_congr A le_rfl (fun i hi => ?_) k hk
  rw [revBits_succ, revBits_add_two_pow, Nat.add_div_right _ (Nat.two_pow_pos m), Nat.div_eq_of_lt hi]

/-- The last stage puts the transforms of the even and of the odd samples together. -/
theorem fftAt_succ_low (x : Nat → α) (hk : k < 2 ^ m) :
    fftAt A (m + 1) x k = A.add (fftAt A m (fun n => x (2 * n)) k)
      (A.mul (fftAt A m (fun n => x (2 * n + 1)) k) (rotation A (m + 1) k)) := by
  have hmod : k % 2 ^ (m + 1) = k := Nat.mod_eq_of_lt (hk.trans (Nat.pow_lt_pow_succ one_lt_two))
  rw [← stagesAt_revBits_low A x hk, ← stagesAt_revBits_high A x hk, fftAt, stagesAt_succ, stageAt, hmod]
  exact if_pos hk

theorem fftAt_succ_high (x : Nat → α) (hk : k < 2 ^ m) :
    fftAt A (m + 1) x (k + 2 ^ m) = A.sub (fftAt A m (fun n => x (2 * n)) k)
      (A.mul (fftAt A m (fun n => x (2 * n + 1)) k) (rotation A (m + 1) k)) := by
  have hmod : (k + 2 ^ m) % 2 ^ (m + 1) = k + 2 ^ m :=
    Nat.mod_eq_of_lt ((Nat.add_lt_add_right hk _).trans_eq (Nat.two_pow_succ m).symm)
  have hback : k + 2 ^ m - 2 ^ (m + 1 - 1) = k := Nat.add_sub_cancel k (2 ^ m)
  rw [← stagesAt_revBits_low A x hk, ← stagesAt_revBits_high A x hk, fftAt, stagesAt_succ, stageAt, hmod, hback]
  exact if_neg (Nat.le_add_left _ k).not_gt

end

/-! ### Exact arithmetic -/

/-- The exact complex arithmetic of R79. -/
noncomputable def exactArith : Arith ℂ :=
  { add := fun a b => a + b, sub := fun a b => a - b, mul := fun a b => a * b, one := 1,
    increment := fun s => Complex.exp (Real.pi * Complex.I / (2 ^ (s - 1) : ℕ)) }

/-- `e^(2 pi i / 2^m)`, the root of unity of the transform of length `2^m`. -/
noncomputable def unityRoot (m : Nat) : ℂ := Complex.exp (2 * Real.pi * Complex.I / (2 ^ m : ℕ))

theorem unityRoot_pow (m j : Nat) :
    unityRoot m ^ j = Complex.exp (2 * Real.pi * Complex.I * j / (2 ^ m : ℕ)) := by
  rw [unityRoot, ← Complex.exp_nat_mul, ← mul_div_assoc, mul_comm]

theorem unityRoot_pow_two_pow (m : Nat) : unityRoot m ^ 2 ^ m = 1 := by
  rw [unityRoot_pow, mul_div_cancel_right₀ _ (Nat.cast_ne_zero.mpr (Nat.two_pow_pos m).ne'), Complex.exp_two_pi_mul_I]

/-- The root of a stage is the increment of its rotations (10_state R26). -/
theorem unityRoot_succ (m : Nat) : unityRoot (m + 1) = exactArith.increment (m + 1) := by
  have hexp : 2 * Real.pi * Complex.I / (2 ^ (m + 1) : ℕ) = Real.pi * Complex.I / (2 ^ m : ℕ) := by
    rw [pow_succ', Nat.cast_mul, Nat.cast_ofNat, mul_assoc, mul_div_mul_left _ _ two_ne_zero]
  exact congrArg Complex.exp hexp

theorem unityRoot_succ_sq (m : Nat) : unityRoot (m + 1) ^ 2 = unityRoot m := by
  rw [unityRoot_pow, unityRoot, pow_succ, Nat.cast_mul, Nat.cast_ofNat, mul_div_mul_right _ _ two_ne_zero]

theorem unityRoot_succ_pow_half (m : Nat) : unityRoot (m + 1) ^ 2 ^ m = -1 := by
  have hne : ((2 ^ m : ℕ) : ℂ) ≠ 0 := Nat.cast_ne_zero.mpr (Nat.two_pow_pos m).ne'
  rw [unityRoot_succ, exactArith, ← Complex.exp_nat_mul, Nat.add_sub_cancel, mul_div_cancel₀ _ hne,
    Complex.exp_pi_mul_I]

theorem rotation_exactArith (m j : Nat) : rotation exactArith (m + 1) j = unityRoot (m + 1) ^ j := by
  induction j with
  | zero => rfl
  | succ j ih =>
    rw [pow_succ, ← ih, unityRoot_succ]
    rfl

/-- The sum of R79. -/
noncomputable def dft (m : Nat) (x : Nat → ℂ) (k : Nat) : ℂ :=
  ∑ n ∈ Finset.range (2 ^ m), x n * unityRoot m ^ (n * k)

theorem sum_range_two_mul {R : Type} [AddCommMonoid R] (n : Nat) (f : Nat → R) :
    ∑ i ∈ Finset.range (2 * n), f i = ∑ i ∈ Finset.range n, (f (2 * i) + f (2 * i + 1)) := by
  induction n with
  | zero => rfl
  | succ n ih => rw [mul_add_one, Finset.sum_range_succ, Finset.sum_range_succ, Finset.sum_range_succ, ih, add_assoc]

theorem dft_succ (m : Nat) (x : Nat → ℂ) (k : Nat) :
    dft (m + 1) x k =
      dft m (fun n => x (2 * n)) k + dft m (fun n => x (2 * n + 1)) k * unityRoot (m + 1) ^ k := by
  rw [dft, pow_succ', sum_range_two_mul, dft, dft, Finset.sum_mul, ← Finset.sum_add_distrib]
  refine Finset.sum_congr rfl fun n _ => ?_
  rw [← unityRoot_succ_sq m]
  ring

theorem dft_add_two_pow (m : Nat) (x : Nat → ℂ) (k : Nat) : dft m x (k + 2 ^ m) = dft m x k := by
  refine Finset.sum_congr rfl fun n _ => ?_
  rw [mul_add, pow_add, mul_comm n (2 ^ m), pow_mul _ (2 ^ m), unityRoot_pow_two_pow, one_pow, mul_one]

/-- R79, by decimation in time. -/
theorem fftAt_exactArith (x : Nat → ℂ) {m k : Nat} (hk : k < 2 ^ m) : fftAt exactArith m x k = dft m x k := by
  induction m generalizing x k with
  | zero =>
    obtain rfl : k = 0 := Nat.lt_one_iff.mp hk
    simp [fftAt, stagesAt, revBits, dft]
  | succ m ih =>
    rcases lt_or_ge k (2 ^ m) with hlow | hhigh
    · rw [fftAt_succ_low _ _ hlow, ih _ hlow, ih _ hlow, rotation_exactArith, dft_succ]
      rfl
    · obtain ⟨k, rfl⟩ := Nat.exists_eq_add_of_le' hhigh
      have hlow : k < 2 ^ m := by rwa [Nat.two_pow_succ, Nat.add_lt_add_iff_right] at hk
      rw [fftAt_succ_high _ _ hlow, ih _ hlow, ih _ hlow, rotation_exactArith, dft_succ, dft_add_two_pow,
        dft_add_two_pow, pow_add, unityRoot_succ_pow_half, mul_neg_one, mul_neg, ← sub_eq_add_neg]
      rfl

end Sys2Proof.Machine

namespace Sys2Proof.Proofs

open Sys2Proof.Machine

/-- Settles O29: decimation in time, the last stage putting the transforms of the even and odd samples together. -/
theorem exactTransformIsPositiveExponentDft : Obligations.ExactTransformIsPositiveExponentDft := by
  intro m x k hk
  refine (fftAt_exactArith x hk).trans (Finset.sum_congr rfl fun n _ => ?_)
  rw [unityRoot_pow, Nat.cast_mul, ← mul_assoc]

end Sys2Proof.Proofs
end

section
/-!
Errors (60_exceptions): the codes of a rejection, and what one host access and one step do to STATUS, in particular to the
sticky flags HAZ and BUSERR.
-/

namespace Sys2Proof.Machine

open Claims

/-! ### Rejections (R92 to R97) -/

theorem lengthError_of_ne {s : State} (h : s.reLen ≠ s.imLen) : lengthError s = .lenMismatch := if_pos h

theorem lengthError_of_not_two_pow {s : State} (h : s.reLen = s.imLen) (h2 : ¬∃ m, s.reLen.toNat = 2 ^ m) :
    lengthError s = .lenNotPow2 := by
  rw [lengthError, if_neg (not_not.mpr h), if_pos]
  exact Bool.eq_false_iff.mpr ((isPow2_iff_exists_two_pow _).not.mpr h2)

theorem lengthError_of_log2NMax_lt {s : State} {m : Nat} (h : s.reLen = s.imLen) (h2 : s.reLen.toNat = 2 ^ m)
    (hm : s.log2NMax.val < m) : lengthError s = .lenTooBig := by
  have hpow : isPow2 s.reLen = true := (isPow2_iff_exists_two_pow _).mpr ⟨m, h2⟩
  have hbig : s.reLen.toNat > nMax s := h2 ▸ Nat.pow_lt_pow_right one_lt_two hm
  rw [lengthError, if_neg (not_not.mpr h), if_neg (by simp [hpow]), if_pos hbig]

/-- A failing length check is the result of every command but NOP (R96). -/
theorem commandError_of_lengthError {i : Instr} {s : State} {e : ErrCode} (hi : i ≠ .nop) (h : lengthError s = e)
    (he : e ≠ .none) : commandError i s = e := by
  subst h
  cases i with
  | nop => exact absurd rfl hi
  | stage k => simp only [commandError, stageError]
  | _ => rfl

theorem commandError_stage_of_range {s : State} {m k : Nat} (h : LengthsAre s m) (hk : k = 0 ∨ m < k) :
    commandError (.stage k) s = .stageRange := by
  have hlen : lengthError s = .none := (lengthError_eq_none_iff s).mpr ⟨m, h⟩
  obtain ⟨-, hlog, -⟩ := h
  simp only [commandError, stageError, hlen, log2_of_toNat hlog]
  exact if_pos hk

theorem exec_rejected {i : Instr} {s : State} {e : ErrCode} (hb : s.status.busy = false) (hi : i ≠ .nop)
    (h : commandError i s = e) (he : e ≠ .none) : exec i s = .next (rejected (errNumber e) s) := by
  rw [exec_eq_submit hi, h, submit_idle_error hb he]
  rfl

/-! ### Where a legal access reaches (20_memory R33, R34) -/

theorem toNat_ofNat_regOffset (r : Reg) : (BitVec.ofNat 22 (regOffset r)).toNat = regOffset r := by cases r <;> rfl

theorem exists_regOffset_eq {n : Nat} (hn : n ≤ 0x17) (h4 : n % 4 = 0) : ∃ r, n = regOffset r := by
  obtain rfl | rfl | rfl | rfl | rfl | rfl :
    n = 0x000 ∨ n = 0x004 ∨ n = 0x008 ∨ n = 0x00C ∨ n = 0x010 ∨ n = 0x014 := by omega
  exacts [⟨.cmd, rfl⟩, ⟨.status, rfl⟩, ⟨.reLen, rfl⟩, ⟨.imLen, rfl⟩, ⟨.irqEn, rfl⟩, ⟨.cap, rfl⟩]

/-- The converse of `aligned_mapped_regOffset` and `aligned_mapped_sampleOffset`. -/
theorem exists_offset_of_mapped {s : State} {n : Nat} (h4 : n % 4 = 0) (h : Mapped s n) :
    (∃ r, n = regOffset r) ∨ ∃ c i, i < nMax s ∧ n = sampleOffset c i := by
  rcases h with h | ⟨hlow, hhigh⟩ | ⟨hlow, hhigh⟩
  · exact .inl (exists_regOffset_eq h h4)
  · refine .inr ⟨.re, (n - chanBase .re) / 4, ?_, ?_⟩ <;> simp only [nMax, sampleOffset, chanBase] <;> omega
  · refine .inr ⟨.im, (n - chanBase .im) / 4, ?_, ?_⟩ <;> simp only [nMax, sampleOffset, chanBase] <;> omega

theorem offset_of_legal {s : State} {a : Access} (h : Legal s a) :
    (∃ r, a.off = BitVec.ofNat 22 (regOffset r)) ∨ ∃ c i, i < nMax s ∧ a.off = BitVec.ofNat 22 (sampleOffset c i) := by
  obtain ⟨-, h4, hmap⟩ := h
  have hoff : ∀ {n}, a.off.toNat = n → a.off = BitVec.ofNat 22 n := by rintro _ rfl; simp
  rcases exists_offset_of_mapped h4 hmap with ⟨r, hr⟩ | ⟨c, i, hi, hci⟩
  · exact .inl ⟨r, hoff hr⟩
  · exact .inr ⟨c, i, hi, hoff hci⟩

/-! ### The accesses a busy block refuses (R98) -/

theorem refusedWhileBusy_reg_iff (s : State) (dir : Dir) (r : Reg) (v : Word) :
    RefusedWhileBusy s { dir, off := BitVec.ofNat 22 (regOffset r), size := .word, data := v } ↔
      dir = .write ∧ r ∈ [.cmd, .reLen, .imLen] := by
  simp only [RefusedWhileBusy, Legal, toNat_ofNat_regOffset, aligned_mapped_regOffset, true_and]
  cases r <;> simp [regOffset]

theorem refusedWhileBusy_sample {s : State} {a : Access} {c : Chan} {i : Nat} (h : Legal s a) (hi : i < nMax s)
    (hoff : a.off = BitVec.ofNat 22 (sampleOffset c i)) : RefusedWhileBusy s a := by
  refine ⟨h, .inl ?_⟩
  rw [hoff, toNat_ofNat_sampleOffset hi]
  cases c <;> simp only [sampleOffset, chanBase] <;> omega

/-! ### What an access does to STATUS (R98 to R100) -/

/-- The state of `s` after the access `a`, by what it does to STATUS. Unlike `AccessOutcome` it says which accesses do
it. -/
inductive StatusEffect (s : State) : Access → State → Prop where
  | illegal {a : Access} (h : ¬Legal s a) : StatusEffect s a { s with
      status := { s.status with buserr := true }, rdata := if a.dir = .read then 0 else s.rdata }
  | refused {a : Access} (hb : s.status.busy = true) (h : RefusedWhileBusy s a) : StatusEffect s a { s with
      status := { s.status with haz := true }, rdata := if a.dir = .read then 0 else s.rdata }
  | submitted {t : State} (v : Word) (hb : s.status.busy = false) (h : SubmitOutcome s t) :
      StatusEffect s (wordWrite 0x000 v) t
  | cleared (w : Word) : StatusEffect s (wordWrite 0x004 w) { s with status := writeOneToClear w s.status }
  | kept {a : Access} {t : State} (h : ¬(s.status.busy = true ∧ RefusedWhileBusy s a)) (ht : t.status = s.status) :
      StatusEffect s a t

theorem statusEffect_writeCmd {v : Word} {s t : State} (h : writeCmd v s = .next t) :
    StatusEffect s (wordWrite 0x000 v) t := by
  rcases writeCmd_cases v s with ⟨hb, hw⟩ | ⟨hb, -, hw⟩ | ⟨hb, i, -, hw⟩
  · obtain rfl := Host.Outcome.next.inj (hw.symm.trans h)
    exact .refused hb ((refusedWhileBusy_reg_iff s .write .cmd v).mpr (by decide))
  · obtain rfl := Host.Outcome.next.inj (hw.symm.trans h)
    exact .submitted v hb (.rejected _)
  · exact .submitted v hb (exec_idle_outcome hb (hw.symm.trans h))

theorem statusEffect_regWrite {r : Reg} {v : Word} {s t : State} (h : regWrite r v s = .next t) :
    StatusEffect s (wordWrite (BitVec.ofNat 22 (regOffset r)) v) t := by
  have hrefused := refusedWhileBusy_reg_iff s .write r v
  cases r with
  | cmd => exact statusEffect_writeCmd h
  | status => exact Host.Outcome.next.inj h ▸ .cleared v
  | reLen | imLen =>
    obtain rfl := Host.Outcome.next.inj h
    split
    next hb => exact .refused hb (hrefused.mpr (by decide))
    next hb => exact .kept (fun hr => hb hr.1) rfl
  | irqEn | cap =>
    obtain rfl := Host.Outcome.next.inj h
    exact .kept (fun hr => absurd (hrefused.mp hr.2) (by decide)) rfl

theorem statusEffect_sample {a : Access} {s t : State} {c : Chan} {i : Nat} (hl : Legal s a) (hi : i < nMax s)
    (hoff : a.off = BitVec.ofNat 22 (sampleOffset c i)) (h : access a s = .next t) : StatusEffect s a t := by
  have hrefused := refusedWhileBusy_sample hl hi hoff
  obtain ⟨dir, off, size, v⟩ := a
  obtain ⟨rfl, -⟩ := hl
  obtain rfl := hoff
  cases dir
  case' read => obtain rfl := Host.Outcome.next.inj ((access_read_sample hi c).symm.trans h)
  case' write => obtain rfl := Host.Outcome.next.inj ((access_write_sample hi c v).symm.trans h)
  all_goals
    split
    next hb => exact .refused hb hrefused
    next hb => exact .kept (fun hr => hb hr.1) rfl

theorem statusEffect_access {a : Access} {s t : State} (h : access a s = .next t) : StatusEffect s a t := by
  by_cases hl : Legal s a
  case neg => exact Host.Outcome.next.inj ((Proofs.illegalAccessOnlySetsBuserr s a hl).symm.trans h) ▸ .illegal hl
  case pos =>
    rcases offset_of_legal hl with ⟨r, hr⟩ | ⟨c, i, hi, hoff⟩
    · obtain ⟨dir, off, size, v⟩ := a
      obtain ⟨rfl, -⟩ := hl
      obtain rfl := hr
      cases dir with
      | read =>
        obtain rfl := Host.Outcome.next.inj ((access_read_reg r s).symm.trans h)
        exact .kept (fun hr => absurd ((refusedWhileBusy_reg_iff s .read r v).mp hr.2).1 (by decide)) rfl
      | write => exact statusEffect_regWrite ((access_write_reg r v s).symm.trans h)
    · exact statusEffect_sample hl hi hoff h

theorem SubmitOutcome.haz_eq {s t : State} (h : SubmitOutcome s t) : t.status.haz = s.status.haz := by cases h <;> rfl

theorem SubmitOutcome.buserr_eq {s t : State} (h : SubmitOutcome s t) : t.status.buserr = s.status.buserr := by
  cases h <;> rfl

/-! ### The sticky flags over a step (R98, R99) -/

/-- A sticky flag set in `f` is set in `g`. -/
structure KeepsSticky (f g : Status) : Prop where
  haz : f.haz = true → g.haz = true
  buserr : f.buserr = true → g.buserr = true

theorem KeepsSticky.refl (f : Status) : KeepsSticky f f := ⟨id, id⟩

theorem access_keepsSticky {a : Access} {s t : State} (h : access a s = .next t) :
    KeepsSticky s.status t.status ∨ ∃ w, a = wordWrite 0x004 w ∧ t.status = writeOneToClear w s.status := by
  cases statusEffect_access h with
  | illegal => exact .inl ⟨id, fun _ => rfl⟩
  | refused => exact .inl ⟨fun _ => rfl, id⟩
  | submitted v hb ht => exact .inl ⟨ht.haz_eq.trans, ht.buserr_eq.trans⟩
  | cleared w => exact .inr ⟨w, rfl, rfl⟩
  | kept _ ht => exact .inl (ht ▸ .refl _)

theorem hostRead_keepsSticky (off : BitVec 22) (size : Size) (s : State) :
    KeepsSticky s.status (hostRead off size s).status := by
  obtain ⟨v, h | h | h⟩ := hostRead_outcome off size s <;> rw [h]
  · exact .refl _
  · exact ⟨id, fun _ => rfl⟩
  · exact ⟨fun _ => rfl, id⟩

theorem hostStep_keepsSticky {s t : State} (h : hostStep s = .next t) :
    KeepsSticky s.status t.status ∨
      ∃ w rest, s.script = .access (wordWrite 0x004 w) :: rest ∧ t.status = writeOneToClear w s.status := by
  rcases hostStep_cases s with ⟨-, hs⟩ | ⟨a, rest, hline, hs⟩ | ⟨off, mask, value, rest, u, -, rfl, hs⟩
  · exact .inl (Host.Outcome.next.inj (hs.symm.trans h) ▸ .refl _)
  · rcases access_keepsSticky (hs.symm.trans h) with hkeep | ⟨w, rfl, hw⟩
    · exact .inl hkeep
    · exact .inr ⟨w, rest, hline, hw⟩
  · have hread := hostRead_keepsSticky off .word { s with script := rest }
    obtain rfl := Host.Outcome.next.inj (hs.symm.trans h)
    split <;> exact .inl hread

theorem engineInternal_keepsSticky {s t : State} (h : engineInternal s = .next t) : KeepsSticky s.status t.status := by
  obtain rfl := Host.Outcome.next.inj h
  split <;> exact .refl _

theorem engineCompletes_keepsSticky {s t : State} (h : engineCompletes s = .next t) :
    KeepsSticky s.status t.status := by
  rcases engineCompletes_cases s with ⟨-, hs⟩ | ⟨-, -, hs⟩ | ⟨-, -, hs⟩
  · exact Host.Outcome.next.inj (hs.symm.trans h) ▸ .refl _
  · exact Host.Outcome.next.inj (hs.symm.trans h) ▸ ⟨id, id⟩
  · simp [hs] at h

/-- Only the reset input and the host's write to STATUS can clear a sticky flag. -/
theorem step_keepsSticky {s t : State} (h : step s = .next t) :
    KeepsSticky s.status t.status ∨ nextTurn s = .reset ∨
      ∃ w rest, HostIssues s (wordWrite 0x004 w) rest ∧ t.status = writeOneToClear w s.status := by
  rcases step_cases s with ⟨hturn, hs⟩ | ⟨-, hs⟩ | ⟨-, hs⟩ | ⟨hturn, -⟩
  · rcases hostStep_keepsSticky (hs.symm.trans h) with hkeep | ⟨w, rest, hline, hw⟩
    · exact .inl hkeep
    · exact .inr (.inr ⟨w, rest, ⟨hturn, hline⟩, hw⟩)
  · exact .inl (engineInternal_keepsSticky (s := dropTurn s) (hs.symm.trans h))
  · exact .inl (engineCompletes_keepsSticky (s := dropTurn s) (hs.symm.trans h))
  · exact .inr (.inl hturn)

end Sys2Proof.Machine

namespace Sys2Proof.Proofs

open Sys2Proof.Machine Sys2Proof.Claims

/-- Settles O11: the first failing check of the command is its code. -/
theorem commandsRejectBadLengths : Obligations.CommandsRejectBadLengths := by
  intro s i hb hi
  have hreject {e : ErrCode} (hlen : lengthError s = e) (he : e ≠ .none) : exec i s = .next (rejected (errNumber e) s) :=
    exec_rejected hb hi (commandError_of_lengthError hi hlen he) he
  refine ⟨fun hne => ?mismatch, fun heq h2 => ?notPow2, fun m heq h2 hm => ?tooBig, fun m k hlen hk hrange => ?range⟩
  case mismatch => exact hreject (lengthError_of_ne hne) (by decide)
  case notPow2 => exact hreject (lengthError_of_not_two_pow heq h2) (by decide)
  case tooBig => exact hreject (lengthError_of_log2NMax_lt heq h2 hm) (by decide)
  case range =>
    subst hk
    exact exec_rejected hb hi (commandError_stage_of_range hlen hrange) (by decide)

/-- Settles O50: of the effects on STATUS only a refusal sets HAZ. -/
theorem hazSetByExactlyThreeActions : Obligations.HazSetByExactlyThreeActions := by
  intro s a t hhaz h
  cases statusEffect_access h with
  | illegal hl => simp [hhaz, RefusedWhileBusy, hl]
  | refused hb hr => exact ⟨⟨fun _ => ⟨hb, hr⟩, fun _ => rfl⟩, fun _ => rfl⟩
  | submitted v hb ht => simp [ht.haz_eq, hhaz, hb]
  | cleared w =>
    have hr : ¬RefusedWhileBusy s (wordWrite 0x004 w) := fun hr =>
      absurd ((refusedWhileBusy_reg_iff s .write .status w).mp hr) (by decide)
    have hclear : (writeOneToClear w s.status).haz ≠ true := by simp [writeOneToClear, hhaz]
    exact ⟨iff_of_false hclear fun hr' => hr hr'.2, fun ht => absurd ht hclear⟩
  | kept hr ht => simp [ht, hhaz, hr]

/-- Settles O51: the write to STATUS clears a flag only where its word has 1. -/
theorem stickyFlagsStaySet : Obligations.StickyFlagsStaySet := by
  intro s t h
  rcases step_keepsSticky h with hkeep | hreset | ⟨w, rest, hissue, hw⟩
  · exact ⟨fun hs ht => by simp [hkeep.haz hs] at ht, fun hs ht => by simp [hkeep.buserr hs] at ht⟩
  · exact ⟨fun _ _ => .inl hreset, fun _ _ => .inl hreset⟩
  · rw [hw, writeOneToClear_eq]
    exact ⟨fun hs ht => .inr ⟨w, rest, hissue, by simpa [hs] using ht⟩,
      fun hs ht => .inr ⟨w, rest, hissue, by simpa [hs] using ht⟩⟩

/-- Settles O52: no effect on STATUS sets two sticky flags, and only a submission writes ERR. -/
theorem oneStickyFlagPerAccess : Obligations.OneStickyFlagPerAccess := by
  intro s a t h
  refine ⟨?oneFlag, fun hl => ?illegal, ?err⟩
  case illegal =>
    obtain rfl := Host.Outcome.next.inj ((illegalAccessOnlySetsBuserr s a hl).symm.trans h)
    exact ⟨rfl, rfl⟩
  case oneFlag =>
    rintro ⟨hhaz, hhaz', hbus, hbus'⟩
    cases statusEffect_access h with
    | illegal => exact absurd (hhaz.symm.trans hhaz') (by decide)
    | refused => exact absurd (hbus.symm.trans hbus') (by decide)
    | submitted v hb ht => simp [ht.haz_eq, hhaz] at hhaz'
    | cleared w => simp [writeOneToClear, hhaz] at hhaz'
    | kept _ ht => simp [ht, hhaz] at hhaz'
  case err =>
    intro herr
    cases statusEffect_access h with
    | submitted v hb => exact ⟨hb, v, rfl⟩
    | kept _ ht => exact absurd (congrArg Status.err ht) herr
    | _ => exact absurd rfl herr

/-- Settles O53: irq reads DONE and EN alone, and the write of 1 clears DONE. -/
theorem interruptIsDoneAndEnabled : Obligations.InterruptIsDoneAndEnabled := by
  refine fun s => ⟨by simp [irq], fun _ _ => rfl, fun w t hw h => ?acknowledge⟩
  obtain rfl := Host.Outcome.next.inj ((statusWriteClearsOnlyW1c s w).symm.trans h)
  simp [irq, hw]

end Sys2Proof.Proofs
end

section
/-!
What the operations of a step can do (40_command R56 to R59, 70_reset R112, R113): a submission, a host
access, the steps of the engine and the reset input, each said once; and the loops of CONJ and SCALE in
closed form (43_inverse R82, R84).
-/

namespace Sys2Proof.Machine

open Claims

/-! ### The frame of a submission (R56, R57, R97) -/

/-- What a submission leaves unchanged, whatever it answers, and that only an acceptance changes the latches. -/
theorem exec_frame {i : Instr} {s t : State} (h : exec i s = .next t) :
    t.samples = s.samples ∧ t.reLen = s.reLen ∧ t.imLen = s.imLen ∧ t.irqEn = s.irqEn ∧ t.log2NMax = s.log2NMax ∧
      t.status.buserr = s.status.buserr ∧ t.seq = s.seq ∧ t.rdata = s.rdata ∧ t.script = s.script ∧ t.turns = s.turns ∧
      t.fresh = s.fresh ∧ (s.status.busy = false → t.status.haz = s.status.haz) ∧
      (¬(s.status.busy = false ∧ t.status.busy = true) →
        t.lop = s.lop ∧ t.ln = s.ln ∧ t.lm = s.lm ∧ t.ls = s.ls ∧ t.status.busy = s.status.busy) := by
  by_cases hi : i = .nop
  · subst hi
    obtain rfl := Host.Outcome.next.inj h
    split <;> exact ⟨rfl, rfl, rfl, rfl, rfl, rfl, rfl, rfl, rfl, rfl, rfl, by simp_all, by simp⟩
  · rw [exec_eq_submit hi] at h
    obtain rfl := Host.Outcome.next.inj h
    rcases submit_cases (commandError i s) (latchOf i).1 (latchOf i).2 s with ⟨hb, hs⟩ | ⟨hb, -, hs⟩ | ⟨hb, -, hs⟩
    all_goals rw [hs]; exact ⟨rfl, rfl, rfl, rfl, rfl, rfl, rfl, rfl, rfl, rfl, rfl, by simp [hb], by simp [hb]⟩

theorem exec_turns {i : Instr} {s t : State} (h : exec i s = .next t) : t.turns = s.turns := by
  obtain ⟨-, -, -, -, -, -, -, -, -, hturns, -⟩ := exec_frame h
  exact hturns

/-! ### The write to CMD (20_memory R36) -/

theorem writeCmd_of_decode_ok {v : Word} {s : State} {i : Instr} (hb : s.status.busy = false) (h : decode v = .ok i) :
    writeCmd v s = exec i s := by
  simp [writeCmd, hb, h]

theorem writeCmd_of_decode_error {v : Word} {s : State} {e : IllegalWord} (hb : s.status.busy = false)
    (h : decode v = .error e) : writeCmd v s = .next (rejected 1 s) := by
  have hreject : writeCmd v s = .next (reject .illegalCmd s) := by simp [writeCmd, hb, h]
  exact hreject

theorem tableWord_toNat (v : Word) : tableWord 32 v.toNat = v := by
  rw [tableWord, Nat.mod_eq_of_lt v.isLt, BitVec.ofNat_toNat, BitVec.setWidth_eq]

/-! ### The meaning of a command (R56, R57) -/

theorem exec_nop_idle {s : State} (hb : s.status.busy = false) : exec .nop s = .next (rejected 0 s) := by
  have hdone : execNop s = .next (raiseDone (recordResult .none s)) := by simp [execNop, hb]
  exact hdone

/-- R57: while busy the meaning of every command is HAZ alone. -/
theorem exec_busy {s : State} (hb : s.status.busy = true) (i : Instr) : exec i s = .next (raiseHaz s) := by
  by_cases hi : i = .nop
  · subst hi
    simp [exec, execNop, hb]
  · rw [exec_eq_submit hi, submit_busy hb]

/-! ### Host accesses answer -/

theorem regWrite_next (r : Reg) (v : Word) (s : State) : ∃ t, regWrite r v s = .next t := by
  cases r with
  | cmd =>
    rcases writeCmd_cases v s with ⟨-, h⟩ | ⟨-, -, h⟩ | ⟨-, i, -, h⟩
    · exact ⟨_, h⟩
    · exact ⟨_, h⟩
    · obtain ⟨t, ht⟩ := exec_next i s
      exact ⟨t, h.trans ht⟩
  | _ => exact ⟨_, rfl⟩

theorem access_next (a : Access) (s : State) : ∃ t, access a s = .next t := by
  obtain ⟨dir, off, size, v⟩ := a
  cases dir with
  | read => exact ⟨_, rfl⟩
  | write =>
    rcases memWrite_cases off size v s with ⟨-, h⟩ | ⟨r, -, h⟩ | ⟨c, i, -, -, h⟩ | ⟨c, i, -, -, h⟩
    · exact ⟨_, h⟩
    · obtain ⟨t, ht⟩ := regWrite_next r v s
      exact ⟨t, h.trans ht⟩
    · exact ⟨_, h⟩
    · exact ⟨_, h⟩

theorem hostStep_next (s : State) : ∃ t, hostStep s = .next t := by
  rcases hostStep_cases s with ⟨-, h⟩ | ⟨a, rest, -, h⟩ | ⟨off, mask, value, rest, u, -, -, h⟩
  · exact ⟨_, h⟩
  · obtain ⟨t, ht⟩ := access_next a { s with script := rest }
    exact ⟨t, h.trans ht⟩
  · exact ⟨_, h⟩

/-! ### An internal step (R58) -/

theorem engineInternal_eq (s : State) : ∃ q n, engineInternal s = .next { s with seq := q, fresh := n } := by
  cases hb : s.status.busy
  · exact ⟨s.seq, s.fresh, by simp [engineInternal, hb]⟩
  · exact ⟨drawSequencer s.fresh, s.fresh + 16, by simp [engineInternal, hb, scrambleSequencer]⟩

/-! ### The completion (R58, R59) -/

/-- A completion that answers while busy had consistent latches and applied the effect (R58, R59). -/
theorem samples_of_engineCompletes {s t : State} (hb : s.status.busy = true) (h : engineCompletes s = .next t) :
    latchesConsistent s = true ∧ t.samples = effect s := by
  rcases engineCompletes_cases s with ⟨hb', -⟩ | ⟨-, hl, hs⟩ | ⟨-, -, hs⟩
  · simp [hb] at hb'
  · exact ⟨hl, Host.Outcome.next.inj (hs.symm.trans h) ▸ rfl⟩
  · simp [hs] at h

theorem idle_of_engineCompletes {s t : State} (h : engineCompletes s = .next t) : t.status.busy = false := by
  rcases engineCompletes_cases s with ⟨hb, hs⟩ | ⟨-, -, hs⟩ | ⟨-, -, hs⟩
  · exact Host.Outcome.next.inj (hs.symm.trans h) ▸ hb
  · exact Host.Outcome.next.inj (hs.symm.trans h) ▸ rfl
  · simp [hs] at h

theorem engineCompletes_turns {s t : State} (h : engineCompletes s = .next t) : t.turns = s.turns := by
  rcases engineCompletes_cases s with ⟨hb, hs⟩ | ⟨hb, -, hs⟩ | ⟨hb, -, hs⟩
  · exact Host.Outcome.next.inj (hs.symm.trans h) ▸ rfl
  · exact Host.Outcome.next.inj (hs.symm.trans h) ▸ rfl
  · simp [hs] at h

/-! ### The reset input (R112, R113) -/

/-- R112: the cleared register reads 0. -/
theorem statusWord_zero : statusWord Status.zero = 0 := by decide

theorem resetBody_samples_of_idle {s : State} (hb : s.status.busy = false) : (resetBody s).samples = s.samples := by
  simp [abandonCommand, hb]

/-! ### Runs -/

/-- A run whose first step answers goes on from there. -/
theorem run_succ_of_step {k : Nat} {s t : State} (h : step s = .next t) :
    Host.Core.run core (k + 1) s = Host.Core.run core k t := by
  simp only [Host.Core.run, core, h]

/-! ### Conjugation (R82) -/

theorem conjBody_succ (N : Nat) (x : Samples) :
    conjBody (N + 1) x = (conjBody N x).set .im N (F32.fneg ((conjBody N x).get .im N)) := by
  rw [conjBody, List.range_succ, List.foldl_concat]
  rfl

/-- R82 writes no word of RE. -/
@[simp] theorem conjBody_re (N : Nat) (x : Samples) : (conjBody N x).re = x.re := by
  induction N with
  | zero => rfl
  | succ N ih => rw [conjBody_succ, ← ih]; rfl

theorem get_im_conjBody (N : Nat) (x : Samples) (i : Nat) :
    (conjBody N x).get .im i = if i < N then F32.fneg (x.get .im i) else x.get .im i := by
  induction N generalizing i with
  | zero => rfl
  | succ N ih =>
    rw [conjBody_succ]
    rcases eq_or_ne i N with rfl | hne
    · rw [Samples.get_set_same, ih, if_neg i.lt_irrefl, if_pos i.lt_succ_self]
    · rw [Samples.get_set_other _ _ fun h => hne h.2, ih]
      exact if_congr (Nat.lt_succ_iff_lt_or_eq.trans (or_iff_left hne)).symm rfl rfl

theorem point_conjBody {N i : Nat} (x : Samples) (hi : i < N) : (conjBody N x).point i = conjugate (x.point i) := by
  refine Prod.ext ?_ ((get_im_conjBody N x i).trans (if_pos hi))
  exact congrArg (fun m : Memory => m.readWord (sampleOffset .re i)) (conjBody_re N x)

/-! ### Scaling (R84) -/

theorem scaleConstant_eq (m : Nat) : scaleConstant m = powerPattern m := by
  rw [scaleConstant, powerPattern, Nat.shiftLeft_eq]

theorem scaleBody_succ (N m : Nat) (x : Samples) :
    scaleBody (N + 1) m x = (scaleBody N m x).setPoint N (scaleBy m ((scaleBody N m x).point N)) := by
  rw [scaleBody, List.range_succ, List.foldl_concat, scaleBy, ← scaleConstant_eq]
  rfl

theorem point_scaleBody (N m : Nat) (x : Samples) (i : Nat) :
    (scaleBody N m x).point i = if i < N then scaleBy m (x.point i) else x.point i := by
  induction N generalizing i with
  | zero => rfl
  | succ N ih =>
    rw [scaleBody_succ]
    rcases eq_or_ne i N with rfl | hne
    · rw [Samples.point_setPoint_same, ih, if_neg i.lt_irrefl, if_pos i.lt_succ_self]
    · rw [Samples.point_setPoint_other _ _ hne, ih]
      exact if_congr (Nat.lt_succ_iff_lt_or_eq.trans (or_iff_left hne)).symm rfl rfl

/-! ### The outcomes of a write to CMD, and what a running command keeps -/

/-- What the write of a word to CMD does in an idle block, by the code of the word. -/
inductive CmdAnswer (v : Word) (s : State) : BitVec 4 → Prop where
  | error {e : BitVec 4} (he : e ≠ 0) (h : writeCmd v s = .next (rejected e s)) : CmdAnswer v s e
  | nop (hop : v.toNat % 16 = 0) (h : writeCmd v s = .next (rejected 0 s)) : CmdAnswer v s 0
  | accepted {m : Nat} (hop : v.toNat % 16 ≠ 0) (hlog : s.reLen.toNat = 2 ^ m)
      (h : writeCmd v s = .next (accepted (BitVec.ofNat 4 (v.toNat % 16)) (v.toNat / 16 % 32) m s)) : CmdAnswer v s 0

/-- The command's samples, latches and lengths are those of `s`, it still runs, and its ERR is the same. -/
structure SameCommand (s t : State) : Prop where
  samples : t.samples = s.samples
  lop : t.lop = s.lop
  ln : t.ln = s.ln
  lm : t.lm = s.lm
  ls : t.ls = s.ls
  reLen : t.reLen = s.reLen
  imLen : t.imLen = s.imLen
  busy : t.status.busy = s.status.busy
  err : t.status.err = s.status.err

end Sys2Proof.Machine
end

section
/-!
A submission (40_command R56, R57, 60_exceptions R96): the host's write to CMD as a step, and the code of
a word.
-/

namespace Sys2Proof.Machine

open Claims

/-! ### The write to CMD (20_memory R36) -/

theorem access_write_cmd (v : Word) (s : State) : access (wordWrite 0x000 v) s = writeCmd v s :=
  access_write_reg .cmd v s

/-- The host's turn on a write to CMD (10_state R17). -/
theorem step_of_issued_cmd {s : State} {v : Word} {rest : List HostLine} (h : HostIssues s (wordWrite 0x000 v) rest) :
    step s = writeCmd v (afterIssue s rest) := by
  obtain ⟨-, haccess, -⟩ := Proofs.stepIsOneAgentsMove s
  exact (haccess _ _ h).trans (access_write_cmd _ _)

/-- The word placed by `withFetchWord` is submitted in the state it was placed in. -/
theorem step_withFetchWord (v : Word) (s : State) : step (s.withFetchWord 32 v.toNat) = writeCmd v s := by
  have hissue : HostIssues (s.withFetchWord 32 v.toNat) (wordWrite 0x000 v) s.script := by
    rw [State.withFetchWord, tableWord_toNat]
    exact ⟨rfl, rfl⟩
  exact step_of_issued_cmd hissue

/-! ### The code of a word (60_exceptions R96) -/

theorem exists_range_two_pow_iff (n : Word) :
    (∃ m ∈ List.range 32, n.toNat = 2 ^ m) ↔ ∃ m, n.toNat = 2 ^ m := by
  refine ⟨fun ⟨m, _, h⟩ => ⟨m, h⟩, fun ⟨m, h⟩ => ⟨m, List.mem_range.mpr ?_, h⟩⟩
  exact (Nat.pow_lt_pow_iff_right one_lt_two).mp (h ▸ n.isLt)

/-- The fields of a word are those its command latches. -/
theorem fields_of_decode {v : Word} {i : Instr} (h : decode v = .ok i) :
    wellFormed i = true ∧ v.toNat % 16 = (latchOf i).1.toNat ∧ v.toNat / 16 % 32 = (latchOf i).2.toNat := by
  obtain ⟨hi, hop, hstage, -⟩ := decode_eq_ok_iff.mp h
  exact ⟨hi, hop ▸ (toNat_opField v).symm, hstage ▸ (toNat_stageField v).symm⟩

theorem latchOf_eq_of_decode {v : Word} {i : Instr} (h : decode v = .ok i) :
    latchOf i = (BitVec.ofNat 4 (v.toNat % 16), BitVec.ofNat 5 (v.toNat / 16 % 32)) := by
  obtain ⟨-, hop, hstage⟩ := fields_of_decode h
  rw [hop, hstage, BitVec.ofNat_toNat, BitVec.ofNat_toNat, BitVec.setWidth_eq, BitVec.setWidth_eq]

theorem eq_nop_iff_of_decode {v : Word} {i : Instr} (h : decode v = .ok i) : i = .nop ↔ v.toNat % 16 = 0 := by
  obtain ⟨-, hop, -⟩ := fields_of_decode h
  rw [hop]
  cases i <;> simp [latchOf]

/-- STAGE's operand is the stage field of its word. -/
theorem toNat_stageField_of_decode_stage {v : Word} {k : Nat} (h : decode v = .ok (.stage k)) :
    v.toNat / 16 % 32 = k := by
  obtain ⟨hk, -, hstage⟩ := fields_of_decode h
  have hk' : k < 2 ^ 5 := Nat.lt_succ_of_le (of_decide_eq_true hk)
  exact hstage.trans (Nat.mod_eq_of_lt hk')

theorem eq_stage_of_decode {v : Word} {i : Instr} (h : decode v = .ok i) (h5 : v.toNat % 16 = 5) :
    i = .stage (v.toNat / 16 % 32) := by
  obtain ⟨-, hop, -⟩ := fields_of_decode h
  obtain ⟨k, rfl⟩ := eq_stage_of_latchOf_opcode (BitVec.eq_of_toNat_eq (hop.symm.trans h5))
  rw [toNat_stageField_of_decode_stage h]

/-- The command of a legal word other than NOP's passes its own check, the range of STAGE's index (R95). -/
theorem runsAt_of_decode {v : Word} {i : Instr} {m : Nat} (h : decode v = .ok i) (h0 : v.toNat % 16 ≠ 0)
    (hrange : ¬(v.toNat % 16 = 5 ∧ (v.toNat / 16 % 32 = 0 ∨ m < v.toNat / 16 % 32))) : RunsAt m i := by
  refine ⟨(eq_nop_iff_of_decode h).not.mpr h0, ?_⟩
  rintro k rfl
  obtain ⟨-, (h5 : v.toNat % 16 = 5), -⟩ := fields_of_decode h
  have hk := toNat_stageField_of_decode_stage h
  omega

/-- The checks of R96 in their order, each with its code. -/
theorem cmdAnswer_validateCode (v : Word) {s : State} (hb : s.status.busy = false) :
    CmdAnswer v s (validateCode v s) := by
  have hillegal := Proofs.illegalWordsAreExactly v
  cases hd : decode v with
  | error e =>
    rw [validateCode, if_pos (hillegal.mp ⟨e, hd⟩)]
    exact .error (by decide) (writeCmd_of_decode_error hb hd)
  | ok i =>
    have hexec := writeCmd_of_decode_ok hb hd
    have hlegal := hillegal.not.mp (by simp [hd])
    have hnop := eq_nop_iff_of_decode hd
    rw [validateCode, if_neg hlegal]
    by_cases h0 : v.toNat % 16 = 0
    · obtain rfl := hnop.mpr h0
      rw [if_pos h0]
      exact .nop h0 (hexec.trans (exec_nop_idle hb))
    obtain ⟨hmismatch, hnotPow2, htooBig, hrange⟩ := Proofs.commandsRejectBadLengths s i hb (hnop.not.mpr h0)
    rw [if_neg h0]
    by_cases heq : s.reLen = s.imLen
    case neg =>
      rw [if_pos heq]
      exact .error (by decide) (hexec.trans (hmismatch heq))
    rw [if_neg (not_not.mpr heq)]
    by_cases h2 : ∃ m ∈ List.range 32, s.reLen.toNat = 2 ^ m
    case neg =>
      rw [if_pos h2]
      exact .error (by decide) (hexec.trans (hnotPow2 heq ((exists_range_two_pow_iff _).not.mp h2)))
    rw [if_neg (not_not.mpr h2)]
    obtain ⟨m, -, hlog⟩ := h2
    simp only [hlog, Nat.pow_lt_pow_iff_right one_lt_two]
    by_cases hm : s.log2NMax.val < m
    · rw [if_pos hm]
      exact .error (by decide) (hexec.trans (htooBig m heq hlog hm))
    have hlen : LengthsAre s m := ⟨heq, hlog, not_lt.mp hm⟩
    rw [if_neg hm]
    by_cases hbad : v.toNat % 16 = 5 ∧ (v.toNat / 16 % 32 = 0 ∨ m < v.toNat / 16 % 32)
    · rw [if_pos hbad]
      exact .error (by decide) (hexec.trans (hrange m _ hlen (eq_stage_of_decode hd hbad.1) hbad.2))
    · have hruns := runsAt_of_decode hd h0 hbad
      rw [if_neg hbad]
      exact .accepted h0 hlog (hexec.trans (accepted_then_completed hb hlen hruns (latchOf_eq_of_decode hd)).1)

end Sys2Proof.Machine

namespace Sys2Proof.Proofs

open Sys2Proof Sys2Proof.Machine Sys2Proof.Claims

/-- Settles O6: the host's turn does the write, and the write of a legal word while idle is the command's meaning. -/
theorem stepRunsDecodedCommand : Obligations.StepRunsDecodedCommand :=
  ⟨fun _ _ _ _ h hb hd => (step_of_issued_cmd h).trans (writeCmd_of_decode_ok hb hd),
    fun _ _ _ _ h hb hd => (step_of_issued_cmd h).trans (writeCmd_of_decode_error hb hd),
    fun s v _ hb hd => (step_withFetchWord v s).trans (writeCmd_of_decode_ok hb hd)⟩

/-- Settles O8: the first step submits the word; it takes the only turn listed, so the second completes the command. -/
theorem submittedCommandRunsInTwoSteps : Obligations.SubmittedCommandRunsInTwoSteps := by
  rintro s i u hi hb hturns ⟨t, hexec, hbusy, hdone⟩
  have hsubmit : step (s.withFetchWord 32 (encode i).toNat) = .next t :=
    (step_withFetchWord _ s).trans ((writeCmd_of_decode_ok hb (encodedCommandsDecodeBack i hi)).trans hexec)
  have ht : t.turns = [] := (exec_turns hexec).trans hturns
  have hcomplete : step t = .next u := by
    obtain ⟨-, -, -, hmove, -, -, hbusyTurn, -⟩ := stepIsOneAgentsMove t
    rw [hmove (hbusyTurn ht hbusy)]
    exact (congrArg engineCompletes (dropTurn_eq_self ht)).trans hdone
  exact (run_succ_of_step hsubmit).trans (run_succ_of_step hcomplete)

/-- Settles O9: the answer to the code that the checks give. -/
theorem submissionFollowsValidation : Obligations.SubmissionFollowsValidation := by
  intro s v hb
  rw [access_write_cmd]
  have hanswer := cmdAnswer_validateCode v hb
  generalize validateCode v s = code at hanswer ⊢
  cases hanswer with
  | error he h => exact ⟨fun _ => h, fun h0 => absurd h0 he, fun h0 => absurd h0 he⟩
  | nop hop h => exact ⟨fun h0 => absurd rfl h0, fun _ _ => h, fun _ hop' => absurd hop hop'⟩
  | accepted hop hlog h => exact ⟨fun h0 => absurd rfl h0, fun _ hop' => absurd hop' hop, fun _ _ => ⟨_, hlog, h⟩⟩

/-- Settles O10: the write and the meaning of every command find the block busy. -/
theorem busySubmissionOnlySetsHaz : Obligations.BusySubmissionOnlySetsHaz :=
  fun s hb => ⟨fun v => (access_write_cmd v s).trans (if_pos hb), exec_busy hb⟩

/-- Settles O13: a refusal sets HAZ, a rejection writes DONE and ERR, and only an acceptance loads the latches. -/
theorem submissionFrame : Obligations.SubmissionFrame := fun _ _ _ => exec_frame

/-- Settles O14: NOP answers as a rejection without an error, and its word has no other bit set. -/
theorem nopCompletesAtOnce : Obligations.NopCompletesAtOnce := by
  refine ⟨fun s hb => ⟨exec_nop_idle hb, rfl⟩, encodedCommandsDecodeBack .nop rfl, fun w hop hne => ?_⟩
  have hw : w.toNat ≠ 0 := fun h => hne (BitVec.eq_of_toNat_eq h)
  exact (illegalWordsAreExactly w).mpr (by omega)

end Sys2Proof.Proofs
end

section
/-!
The inverse transform in closed form (43_inverse R86), what an effect reads (40_command R60), and IFFT,
CONJ and SCALE from acceptance to completion.
-/

namespace Sys2Proof.Machine

open Claims

/-! ### What an effect reads (40_command R59, R60) -/

section
variable {m i : Nat} {x y : Samples}

/-- R86 in the source's order: the scaling comes before the last conjugation. -/
theorem point_ifftBody (x : Samples) (hm : m ≤ 16) (hi : i < 2 ^ m) :
    (ifftBody (2 ^ m) m x).point i =
      conjugate (scaleBy m (fftAt binary32 m (fun p => conjugate (x.point p)) i)) := by
  have hconj : ∀ j < 2 ^ m, (bitRevBody (2 ^ m) (conjBody (2 ^ m) x)).point j = conjugate (x.point (revBits m j)) :=
    fun j hj => (point_bitRevBody _ hm hj).trans (point_conjBody x (revBits_lt m j))
  rw [ifftBody, point_conjBody _ hi, point_scaleBody, if_pos hi, point_stagesBody le_rfl hconj i hi]
  rfl

theorem fftAt_congr {α : Type} {A : Arith α} {f g : Nat → α} (h : ∀ i < 2 ^ m, f i = g i) (hi : i < 2 ^ m) :
    fftAt A m f i = fftAt A m g i :=
  stagesAt_congr A le_rfl (fun j _ => h _ (revBits_lt m j)) i hi

theorem stageAt_congr_below {α : Type} {A : Arith α} {s : Nat} {f g : Nat → α} (hs : 1 ≤ s) (hsm : s ≤ m)
    (h : ∀ i < 2 ^ m, f i = g i) (hi : i < 2 ^ m) : stageAt A s f i = stageAt A s g i := by
  obtain ⟨s, rfl⟩ : ∃ n, s = n + 1 := Nat.exists_eq_add_of_le' hs
  have hin := pairBase_add_lt hsm hi
  exact stageAt_congr A (h _ ((Nat.le_add_right _ _).trans_lt hin)) (h _ hin)

end

/-- The effect of consistent latches at the words of its length depends on those words and the latches alone. -/
theorem point_effect_congr {s t : State} (hop : s.lop = t.lop) (hln : s.ln = t.ln) (hlm : s.lm = t.lm)
    (hls : s.ls = t.ls) (hl : latchesConsistent s = true)
    (h : ∀ i < s.ln.toNat, s.samples.point i = t.samples.point i) :
    ∀ i < s.ln.toNat, (effect s).point i = (effect t).point i := by
  obtain ⟨-, -, hlen, hle, hstage⟩ := (latchesConsistent_iff s).mp hl
  have hm : s.lm.toNat ≤ 16 := hle.trans (Nat.le_of_lt_succ s.log2NMax.isLt)
  intro i hi
  unfold effect
  rw [← hop, ← hln, ← hlm, ← hls]
  rw [hlen] at h hi ⊢
  split
  case h_1 => rw [point_fftBody _ hm hi, point_fftBody _ hm hi, fftAt_congr h hi]
  case h_2 =>
    rw [point_ifftBody _ hm hi, point_ifftBody _ hm hi, fftAt_congr (fun j hj => congrArg conjugate (h j hj)) hi]
  case h_3 => rw [point_bitRevBody _ hm hi, point_bitRevBody _ hm hi, h _ (revBits_lt _ i)]
  case h_4 => rw [point_stagesBody le_rfl h i hi, point_stagesBody le_rfl (fun _ _ => rfl) i hi]
  case h_5 h5 =>
    obtain ⟨hs, hsm⟩ := hstage (BitVec.eq_of_toNat_eq h5)
    rw [point_stageBody _ hs hsm hi, point_stageBody _ hs hsm hi, stageAt_congr_below hs hsm h hi]
  case h_6 => rw [point_conjBody _ hi, point_conjBody _ hi, h i hi]
  case h_7 => rw [point_scaleBody, point_scaleBody, h i hi]
  case h_8 => exact h i hi

end Sys2Proof.Machine

namespace Sys2Proof.Proofs

open Sys2Proof Sys2Proof.Machine Sys2Proof.Claims

/-- Settles O19: the transform's closed form between the two conjugations and the scaling. -/
theorem ifftComputesInverse : Obligations.IfftComputesInverse := by
  intro s m hb hlen
  have hm := le_sixteen_of_lengthsAre hlen
  obtain ⟨haccept, u, hdone, hframe, hu⟩ := accepted_then_completed (i := .ifft) hb hlen (by simp [RunsAt]) rfl
  exact ⟨haccept, u, hdone, hframe, fun i hi => hu ▸ point_ifftBody _ hm hi⟩

/-- Settles O20: each turn of the loop negates one word of IM. -/
theorem conjFlipsImaginarySigns : Obligations.ConjFlipsImaginarySigns := by
  intro s m hb hlen
  obtain ⟨haccept, u, hdone, hframe, hu⟩ := accepted_then_completed (i := .conj) hb hlen (by simp [RunsAt]) rfl
  exact ⟨haccept, u, hdone, hframe, hu ▸ conjBody_re _ _, fun i hi => hu ▸ (get_im_conjBody _ _ i).trans (if_pos hi)⟩

/-- Settles O21: each turn of the loop multiplies both words of one sample. -/
theorem scaleMultipliesBothChannels : Obligations.ScaleMultipliesBothChannels := by
  intro s m hb hlen
  obtain ⟨haccept, u, hdone, hframe, hu⟩ := accepted_then_completed (i := .scale) hb hlen (by simp [RunsAt]) rfl
  refine ⟨haccept, u, hdone, hframe, fun i hi c => ?_⟩
  have hpoint : u.samples.point i = scaleBy m (s.samples.point i) :=
    hu ▸ (point_scaleBody _ _ _ i).trans (if_pos hi)
  cases c
  · exact congrArg Prod.fst hpoint
  · exact congrArg Prod.snd hpoint

/-- Settles O27: IFFT's effect is the four others' in a row. -/
theorem ifftIsFourCommands : Obligations.IfftIsFourCommands := by
  intro s m hb hlen
  obtain ⟨u, hu, hifft⟩ := exists_runsTo (i := .ifft) hb hlen (by simp [RunsAt])
  obtain ⟨v, hv, hlist⟩ := exists_runAll (l := [.conj, .fft, .scale, .conj]) hb hlen (by simp [RunsAt])
  exact ⟨u, v, hu, hv, hifft.samples.trans hlist.samples.symm⟩

/-- Settles O30: each effect has a closed form in the words of its length. -/
theorem resultDependsOnLatchedWordsOnly : Obligations.ResultDependsOnLatchedWordsOnly := by
  intro s t s' t' hs ht hop hln hlm hls h hs' ht'
  obtain ⟨hl, hsamples⟩ := samples_of_engineCompletes hs hs'
  obtain ⟨-, hsamples'⟩ := samples_of_engineCompletes ht ht'
  rw [hsamples, hsamples']
  exact point_effect_congr hop hln hlm hls hl h

end Sys2Proof.Proofs
end

section
/-!
Scaling by a power of two (43_inverse R84): the factor is a normal pattern, so a result that stays normal keeps its
fraction.
-/

namespace Sys2Proof.Machine.F32

open Claims

variable {x : Word} {m : Nat}

theorem powerPattern_eq_pack (m : Nat) : powerPattern m = pack false (127 - m) 0 := by
  simp [powerPattern, pack]

theorem sign_powerPattern (m : Nat) : sign (powerPattern m) = false := by
  rw [powerPattern_eq_pack, sign_pack _ (by omega) (by norm_num)]

theorem expField_powerPattern (m : Nat) : expField (powerPattern m) = 127 - m := by
  rw [powerPattern_eq_pack, expField_pack _ (by omega) (by norm_num)]

theorem isFinite_powerPattern (m : Nat) : isFinite (powerPattern m) = true := by
  rw [isFinite_iff, expField_powerPattern]
  omega

theorem isZero_powerPattern (hm : m ≤ 16) : isZero (powerPattern m) = false := by
  refine Bool.eq_false_iff.mpr fun h => ?_
  have h0 := ((isZero_iff _).mp h).1
  rw [expField_powerPattern] at h0
  omega

theorem magnitude_powerPattern (hm : m ≤ 16) : magnitude (powerPattern m) = 2 ^ (149 - m) := by
  rw [powerPattern_eq_pack, magnitude_pack _ (by omega) (by norm_num), if_neg (by omega), add_zero, ← pow_add]
  congr 1
  omega

/-- A finite product with 2^-m keeps the sign and rounds the magnitude divided by 2^m. -/
theorem fmul_powerPattern (hx : isFinite x = true) (hm : m ≤ 16) :
    fmul x (powerPattern m) = rn32 (sign x) (magnitude x * 2 ^ (149 - m)) (2 ^ 298) := by
  rw [fmul_of_isFinite hx (isFinite_powerPattern m), sign_powerPattern, Bool.bne_false, Int.natAbs_mul, natAbs_value,
    natAbs_value, magnitude_powerPattern hm]

/-! ### Corners (R84) -/

theorem fmul_powerPattern_of_isZero (hx : isZero x = true) (hm : m ≤ 16) : fmul x (powerPattern m) = x := by
  obtain ⟨he, hf⟩ := (isZero_iff x).mp hx
  have hmag : magnitude x = 0 := by rw [magnitude, if_pos he, hf]
  have hfin : isFinite x = true := (isFinite_iff x).mpr (by omega)
  rw [fmul_powerPattern hfin hm, hmag]
  exact rn32_magnitude hfin (by positivity) (by rw [hmag, zero_mul, zero_mul, zero_mul])

theorem fmul_powerPattern_of_isInf (hx : isInf x = true) (hm : m ≤ 16) : fmul x (powerPattern m) = x := by
  have hnan := not_isNaN_of_isFinite (isFinite_powerPattern m)
  rw [fmul_inf_left hx hnan (isZero_powerPattern hm), sign_powerPattern, Bool.bne_false]
  exact (eq_inf_of_isInf hx).symm

/-- The pattern of x / 2^m where it is normal: the exponent field goes down by m. -/
def lowered (x : Word) (m : Nat) : Word := pack (sign x) (expField x - m) (fracField x)

theorem expField_sub_lt (x : Word) (m : Nat) : expField x - m < 2 ^ 8 :=
  (Nat.sub_le _ _).trans_lt (x.extractLsb' 23 8).isLt

theorem sign_lowered (x : Word) (m : Nat) : sign (lowered x m) = sign x :=
  sign_pack _ (expField_sub_lt x m) (fracField_lt x)

theorem isFinite_lowered (hx : isFinite x = true) : isFinite (lowered x m) = true := by
  have hlt : expField x < 2 ^ 8 := (x.extractLsb' 23 8).isLt
  rw [isFinite_iff] at hx ⊢
  rw [lowered, expField_pack _ (expField_sub_lt x m) (fracField_lt x)]
  omega

theorem magnitude_lowered_mul (h : m < expField x) : magnitude (lowered x m) * 2 ^ m = magnitude x := by
  rw [lowered, magnitude_pack _ (expField_sub_lt x m) (fracField_lt x), magnitude, if_neg (by omega), if_neg (by omega),
    mul_assoc, ← pow_add]
  congr 2
  omega

theorem value_lowered_mul (h : m < expField x) : value (lowered x m) * 2 ^ m = value x := by
  have hmag : (magnitude (lowered x m) : Int) * 2 ^ m = magnitude x := by exact_mod_cast magnitude_lowered_mul h
  rw [value, value, sign_lowered, ← hmag]
  split_ifs
  · exact neg_mul _ _
  · rfl

/-- The quotient is a pattern, so rounding it changes nothing. -/
theorem fmul_powerPattern_eq_lowered (hx : isFinite x = true) (hm : m ≤ 16) (h : m < expField x) :
    fmul x (powerPattern m) = lowered x m := by
  rw [fmul_powerPattern hx hm, ← sign_lowered x m]
  refine rn32_magnitude (isFinite_lowered hx) (by positivity) ?_
  rw [← magnitude_lowered_mul h, mul_assoc, mul_assoc, ← pow_add, ← pow_add]
  congr 2
  omega

end Sys2Proof.Machine.F32

namespace Sys2Proof.Proofs

open Sys2Proof.Machine Sys2Proof.Claims

/-- Settles O37: one case for each class of the operand, and 2^0 is the pattern of 1. -/
theorem scalingCorners : Obligations.ScalingCorners := by
  intro x m hm
  refine ⟨fun hx h => ?normal, fun hx => ?corner, fun hx => F32.fmul_of_isNaN (.inl hx), fun hx => ?one⟩
  case normal => rw [F32.fmul_powerPattern_eq_lowered hx hm h, F32.value_lowered_mul h]
  case corner => exact hx.elim (F32.fmul_powerPattern_of_isZero · hm) (F32.fmul_powerPattern_of_isInf · hm)
  case one =>
    rcases F32.isInf_or_isFinite (Bool.not_eq_true _ ▸ hx) with hinf | hfin
    · exact F32.fmul_powerPattern_of_isInf hinf (Nat.zero_le 16)
    · exact F32.fmul_one hfin

end Sys2Proof.Proofs
end

section
/-!
A running command and what can end it (40_command R58, R61, 70_reset R121), the reset input (R111 to R113) and the
power-on state.
-/

namespace Sys2Proof.Machine

open Claims

/-! ### An access while busy (R61) -/

theorem hostRead_sameCommand (off : BitVec 22) (size : Size) (s : State) : SameCommand s (hostRead off size s) := by
  obtain ⟨v, h | h | h⟩ := hostRead_outcome off size s <;> rw [h] <;> constructor <;> rfl

theorem AccessOutcome.sameCommand {s t : State} (h : AccessOutcome s t) (hb : s.status.busy = true) :
    SameCommand s t := by
  cases h with
  | read off size => exact hostRead_sameCommand off size s
  | submit hb' | setReLen hb' | setImLen hb' | setSample hb' => simp [hb] at hb'
  | illegalWrite | refusedWrite | clearFlags | setIrqEn | capIgnored => constructor <;> rfl

/-- The host's turn ends no command. -/
theorem hostStep_busy {s t : State} (hb : s.status.busy = true) (h : hostStep s = .next t) : t.status.busy = true := by
  rcases hostStep_cases s with ⟨-, hs⟩ | ⟨a, rest, -, hs⟩ | ⟨off, mask, value, rest, u, -, rfl, hs⟩
  · exact Host.Outcome.next.inj (hs.symm.trans h) ▸ hb
  · exact ((access_outcome (hs.symm.trans h)).sameCommand hb).busy.trans hb
  · have hread := (hostRead_sameCommand off .word { s with script := rest }).busy.trans hb
    obtain rfl := Host.Outcome.next.inj (hs.symm.trans h)
    split <;> exact hread

/-! ### Every step answers, and takes one turn off the list -/

/-- The only fault is that of inconsistent latches, which the invariant excludes. -/
theorem BlockInv.exists_step {s : State} (h : BlockInv s) : ∃ t, Machine.step s = .next t := by
  rcases step_cases s with ⟨-, hs⟩ | ⟨-, hs⟩ | ⟨-, hs⟩ | ⟨-, hs⟩
  · obtain ⟨t, ht⟩ := hostStep_next (dropTurn s)
    exact ⟨t, hs.trans ht⟩
  · exact ⟨_, hs⟩
  · have h' : BlockInv (dropTurn s) := { h with }
    rcases engineCompletes_cases (dropTurn s) with ⟨-, hc⟩ | ⟨-, -, hc⟩ | ⟨hb, hl, -⟩
    · exact ⟨_, hs.trans hc⟩
    · exact ⟨_, hs.trans hc⟩
    · simp [h'.latches hb] at hl
  · exact ⟨_, hs⟩

@[simp] theorem hostRead_turns (off : BitVec 22) (size : Size) (s : State) :
    (hostRead off size s).turns = s.turns := by
  obtain ⟨v, h | h | h⟩ := hostRead_outcome off size s <;> rw [h] <;> rfl

theorem AccessOutcome.turns_eq {s t : State} (h : AccessOutcome s t) : t.turns = s.turns := by
  cases h with
  | read off size => exact hostRead_turns off size s
  | submit hb h => cases h <;> rfl
  | _ => rfl

theorem hostStep_turns {s t : State} (h : hostStep s = .next t) : t.turns = s.turns := by
  rcases hostStep_cases s with ⟨-, hs⟩ | ⟨a, rest, -, hs⟩ | ⟨off, mask, value, rest, u, -, rfl, hs⟩
  · exact Host.Outcome.next.inj (hs.symm.trans h) ▸ rfl
  · exact (access_outcome (hs.symm.trans h)).turns_eq
  · obtain rfl := Host.Outcome.next.inj (hs.symm.trans h)
    split <;> simp

theorem step_turns {s t : State} (h : step s = .next t) : t.turns = s.turns.tail := by
  rcases step_cases s with ⟨-, hs⟩ | ⟨-, hs⟩ | ⟨-, hs⟩ | ⟨-, hs⟩
  · exact hostStep_turns (hs.symm.trans h)
  · obtain ⟨q, n, hi⟩ := engineInternal_eq (dropTurn s)
    exact Host.Outcome.next.inj (hi.symm.trans (hs.symm.trans h)) ▸ rfl
  · exact engineCompletes_turns (hs.symm.trans h)
  · obtain rfl := Host.Outcome.next.inj (hs.symm.trans h)
    simp

/-! ### The end of a command (R58, R121) -/

/-- Only the completion and the reset input end a command. -/
theorem nextTurn_of_step_idle {s t : State} (hb : s.status.busy = true) (h : step s = .next t)
    (ht : t.status.busy = false) : nextTurn s = .complete ∨ nextTurn s = .reset := by
  rcases step_cases s with ⟨-, hs⟩ | ⟨-, hs⟩ | ⟨hturn, -⟩ | ⟨hturn, -⟩
  · have hbusy := hostStep_busy (s := dropTurn s) hb (hs.symm.trans h)
    simp [ht] at hbusy
  · obtain ⟨q, n, hi⟩ := engineInternal_eq (dropTurn s)
    obtain rfl := Host.Outcome.next.inj (hi.symm.trans (hs.symm.trans h))
    simp [hb] at ht
  · exact .inl hturn
  · exact .inr hturn

theorem idle_of_step_complete {s t : State} (hturn : nextTurn s = .complete) (h : step s = .next t) :
    t.status.busy = false := by
  obtain ⟨-, -, -, hmove, -⟩ := Proofs.stepIsOneAgentsMove s
  exact idle_of_engineCompletes ((hmove hturn).symm.trans h)

/-- By induction on the turns listed: each step takes one off, and once none is left the engine completes. -/
theorem exists_run_idle {n : Nat} {s : State} (h : BlockInv s) (hb : s.status.busy = true)
    (hn : s.turns.length = n) : ∃ k ≤ n + 1, ∃ t, Host.Core.run core k s = .next t ∧ t.status.busy = false := by
  induction n generalizing s with
  | zero =>
    obtain ⟨t, ht⟩ := h.exists_step
    have hturn : nextTurn s = .complete := by simp [nextTurn, List.length_eq_zero_iff.mp hn, hb]
    exact ⟨1, le_rfl, t, run_succ_of_step ht, idle_of_step_complete hturn ht⟩
  | succ n ih =>
    obtain ⟨t, ht⟩ := h.exists_step
    cases hb' : t.status.busy
    case false => exact ⟨1, Nat.le_add_left 1 _, t, run_succ_of_step ht, hb'⟩
    case true =>
      have hlen : t.turns.length = n := by rw [step_turns ht, List.length_tail, hn, Nat.add_sub_cancel]
      obtain ⟨k, hk, u, hrun, hu⟩ := ih (h.step ht) hb' hlen
      exact ⟨k + 1, Nat.succ_le_succ hk, u, (run_succ_of_step ht).trans hrun, hu⟩

/-! ### The reset input (R111, R113) -/

/-- An abandoned command loses only the words of its length. -/
theorem read_resetBody (s : State) {c : Chan} {a : Nat} (ha : a < chanBase c ∨ chanBase c + 4 * s.ln.toNat ≤ a) :
    ((resetBody s).samples.chan c).read a = (s.samples.chan c).read a := by
  rw [resetBody_samples, abandonCommand]
  split
  · exact (read_keptBelow ha _).scramblePoints rfl s.fresh
  · rfl

end Sys2Proof.Machine

namespace Sys2Proof.Proofs

open Sys2Proof Sys2Proof.Machine Sys2Proof.Claims

/-- Settles O39: the step draws working state and counts what it drew. -/
theorem internalStepsAreInvisible : Obligations.InternalStepsAreInvisible := by
  intro s
  obtain ⟨q, n, h⟩ := engineInternal_eq s
  exact ⟨_, h, ⟨rfl, rfl, rfl, rfl, rfl, rfl, rfl⟩, rfl⟩

/-- Settles O40: of the outcomes of an access those that write the command's state need an idle block. -/
theorem noHostAccessChangesRunningCommand : Obligations.NoHostAccessChangesRunningCommand := by
  refine ⟨fun s a t hb h => ?_, fun s t => nextTurn_of_step_idle⟩
  have hsame := (access_outcome h).sameCommand hb
  exact ⟨hsame.samples, hsame.lop, hsame.ln, hsame.lm, hsame.ls, hsame.reLen, hsame.imLen, hsame.busy.trans hb,
    hsame.err⟩

/-- Settles O41, by induction on the list of turns. -/
theorem acceptedCommandEnds : Obligations.AcceptedCommandEnds := fun _ h hb => exists_run_idle h hb rfl

/-- Settles O55: length 0 is no power of two. -/
theorem powerOnState : Obligations.PowerOnState := by
  intro k
  have hread : ∀ c a, ((State.resetFor k).samples.chan c).read a = none := fun c a => by cases c <;> rfl
  have hzero : ¬∃ m, (State.resetFor k).reLen.toNat = 2 ^ m := fun ⟨m, hm⟩ => (Nat.two_pow_pos m).ne hm
  obtain ⟨-, hnotPow2, -⟩ := commandsRejectBadLengths (State.resetFor k) .fft rfl (by decide)
  exact ⟨statusWord_zero, rfl, rfl, rfl, rfl, hread, hnotPow2 rfl hzero⟩

/-- Settles O56: the reset's turn, with the command abandoned if one runs. -/
theorem resetInput : Obligations.ResetInput := by
  intro s hturn
  obtain ⟨-, -, -, -, -, hreset, -⟩ := stepIsOneAgentsMove s
  exact ⟨_, hreset hturn, statusWord_zero, rfl, rfl, rfl, rfl, resetBody_log2NMax _, resetBody_rdata _,
    resetBody_script _, resetBody_turns _, resetBody_samples_of_idle (s := dropTurn s),
    fun _ _ => read_resetBody (dropTurn s)⟩

/-- Settles O59: consistent latches leave the completion no fault. -/
theorem invariantStatesNeverStop : Obligations.InvariantStatesNeverStop := fun _ h => h.exists_step

end Sys2Proof.Proofs
end
